-- ==== Sys2Proof/Word.lean ====
section
/-! DEFINITION. The bit-vector types of the core: words, the program counter and the fields of an instruction
(00_scope.md R4, R5; 10_state.md R21, R28; 30_encoding.md R71 to R75). -/

namespace Sys2Proof

/-- A 16-bit unsigned integer: a register, a memory cell, an instruction (00_scope.md R4, WORD_BITS). -/
abbrev Word := BitVec 16

/-- The program counter: 9 bits, holding 0..256 (10_state.md R28). -/
abbrev Pc := BitVec 9

/-- A 3-bit register field, as it stands in the instruction word (30_encoding.md R76, R77). -/
abbrev RegField := BitVec 3

/-- The 7-bit unsigned immediate of format B (30_encoding.md R72, R78). -/
abbrev Imm := BitVec 7

/-- The 7-bit unsigned address field of formats D and E (30_encoding.md R74, R75, R78). -/
abbrev Addr := BitVec 7

/-- The 5-bit opcode, bits 15:11 (30_encoding.md R70). -/
abbrev Opcode := BitVec 5

end Sys2Proof
end

