-- ==== Sys2Proof/Syntax.lean ====
section
/-! DEFINITION. The instructions: one constructor per row of spec/opcode_table.json, in the table's order
(30_encoding.md R80). A constructor holds the raw fields of its format (30_encoding.md R85): whether a register field
names a register is checked when the instruction executes (R76). Unused bits are not kept (R79). -/

namespace Sys2Proof

inductive Instr where
  | add (reg1 reg2 reg3 : RegField)          -- 00000, format A, R100
  | sub (reg1 reg2 reg3 : RegField)          -- 00001, format A, R101
  | movi (reg1 : RegField) (imm : Imm)       -- 00010, format B, R120
  | movr (reg1 reg2 : RegField)              -- 00011, format C, R121
  | ld (reg1 : RegField) (address : Addr)    -- 00100, format D, R122
  | st (reg1 : RegField) (address : Addr)    -- 00101, format D, R123
  | mul (reg1 reg2 reg3 : RegField)          -- 00110, format A, R102
  | div (reg1 reg2 : RegField)               -- 00111, format C, R103
  | rs (reg1 : RegField) (imm : Imm)         -- 01000, format B, R140
  | ls (reg1 : RegField) (imm : Imm)         -- 01001, format B, R141
  | xor (reg1 reg2 reg3 : RegField)          -- 01010, format A, R142
  | or (reg1 reg2 reg3 : RegField)           -- 01011, format A, R143
  | and (reg1 reg2 reg3 : RegField)          -- 01100, format A, R144
  | not (reg1 reg2 : RegField)               -- 01101, format C, R145
  | cmp (reg1 reg2 : RegField)               -- 01110, format C, R160
  | jmp (address : Addr)                     -- 01111, format E, R161
  | fadd (reg1 reg2 reg3 : RegField)         -- 10000, format A, R181
  | fsub (reg1 reg2 reg3 : RegField)         -- 10001, format A, R182
  | movf (reg1 : RegField) (imm : Imm)       -- 10010, format B for syntax only, R183
  | setb (reg1 : RegField) (imm : Imm)       -- 10011, format B, R190
  | clrb (reg1 : RegField) (imm : Imm)       -- 10100, format B, R191
  | tglb (reg1 : RegField) (imm : Imm)       -- 10101, format B, R192
  | rol (reg1 : RegField) (imm : Imm)        -- 10110, format B, R193
  | ror (reg1 : RegField) (imm : Imm)        -- 10111, format B, R194
  | nop24                                    -- 11000, format N, R211
  | nop25                                    -- 11001, format N, R211
  | hlt                                      -- 11010, format N, R210
  | nop27                                    -- 11011, format N, R211
  | jlt (address : Addr)                     -- 11100, format E, R162
  | jgt (address : Addr)                     -- 11101, format E, R163
  | nop30                                    -- 11110, format N, R211
  | je (address : Addr)                      -- 11111, format E, R164
  deriving DecidableEq, Repr

/-- Where a register field stands in the word (60_exceptions.md R220): its bit positions. -/
inductive FieldPos where
  | bits8to6
  | bits9to7
  | bits5to3
  | bits2to0
  deriving DecidableEq, Repr

end Sys2Proof
end

