-- ==== Sys2Proof/Decode.lean ====
section
/-! DEFINITION. Decoding and encoding (30_encoding.md). Decoding is total on the 65536 words and rejects none (R83);
it is a function of the word alone (R85) and ignores the unused bits of the format (R79). -/

namespace Sys2Proof

/-- Bits 8:6 (format A's reg1, R71). -/
def field8to6 (w : Word) : RegField := w.extractLsb' 6 3

/-- Bits 9:7 (reg1 of formats B and D, R72, R74). -/
def field9to7 (w : Word) : RegField := w.extractLsb' 7 3

/-- Bits 5:3 (format A's reg2, format C's reg1; R71, R73). -/
def field5to3 (w : Word) : RegField := w.extractLsb' 3 3

/-- Bits 2:0 (format A's reg3, format C's reg2; R71, R73). -/
def field2to0 (w : Word) : RegField := w.extractLsb' 0 3

/-- Bits 6:0 (the immediate of format B, the address of formats D and E; R72, R74, R75). -/
def field6to0 (w : Word) : BitVec 7 := w.extractLsb' 0 7

/-- The format-A reading of a word (R71). -/
def formatA (mk : RegField → RegField → RegField → Instr) (w : Word) : Instr :=
  mk (field8to6 w) (field5to3 w) (field2to0 w)

/-- The reading of a word in format B or D, which cut it alike (R72, R74). -/
def formatBD (mk : RegField → BitVec 7 → Instr) (w : Word) : Instr := mk (field9to7 w) (field6to0 w)

/-- The format-C reading of a word (R73). -/
def formatC (mk : RegField → RegField → Instr) (w : Word) : Instr := mk (field5to3 w) (field2to0 w)

/-- The format-E reading of a word (R75). -/
def formatE (mk : Addr → Instr) (w : Word) : Instr := mk (field6to0 w)

/-- The opcode map of 30_encoding.md R80, by the opcode's bits 15, 14, 13, 12, 11: one row a line, no two rows alike
and none left over. -/
def decode (w : Word) : Instr :=
  match w.getLsbD 15, w.getLsbD 14, w.getLsbD 13, w.getLsbD 12, w.getLsbD 11 with
  | false, false, false, false, false => formatA .add w
  | false, false, false, false, true  => formatA .sub w
  | false, false, false, true,  false => formatBD .movi w
  | false, false, false, true,  true  => formatC .movr w
  | false, false, true,  false, false => formatBD .ld w
  | false, false, true,  false, true  => formatBD .st w
  | false, false, true,  true,  false => formatA .mul w
  | false, false, true,  true,  true  => formatC .div w
  | false, true,  false, false, false => formatBD .rs w
  | false, true,  false, false, true  => formatBD .ls w
  | false, true,  false, true,  false => formatA .xor w
  | false, true,  false, true,  true  => formatA .or w
  | false, true,  true,  false, false => formatA .and w
  | false, true,  true,  false, true  => formatC .not w
  | false, true,  true,  true,  false => formatC .cmp w
  | false, true,  true,  true,  true  => formatE .jmp w
  | true,  false, false, false, false => formatA .fadd w
  | true,  false, false, false, true  => formatA .fsub w
  | true,  false, false, true,  false => formatBD .movf w
  | true,  false, false, true,  true  => formatBD .setb w
  | true,  false, true,  false, false => formatBD .clrb w
  | true,  false, true,  false, true  => formatBD .tglb w
  | true,  false, true,  true,  false => formatBD .rol w
  | true,  false, true,  true,  true  => formatBD .ror w
  | true,  true,  false, false, false => .nop24
  | true,  true,  false, false, true  => .nop25
  | true,  true,  false, true,  false => .hlt
  | true,  true,  false, true,  true  => .nop27
  | true,  true,  true,  false, false => formatE .jlt w
  | true,  true,  true,  false, true  => formatE .jgt w
  | true,  true,  true,  true,  false => .nop30
  | true,  true,  true,  true,  true  => formatE .je w

/-- The opcode of an instruction (the "op" column of R80). -/
def Instr.opcode : Instr → Opcode
  | .add _ _ _  => 0b00000
  | .sub _ _ _  => 0b00001
  | .movi _ _   => 0b00010
  | .movr _ _   => 0b00011
  | .ld _ _     => 0b00100
  | .st _ _     => 0b00101
  | .mul _ _ _  => 0b00110
  | .div _ _    => 0b00111
  | .rs _ _     => 0b01000
  | .ls _ _     => 0b01001
  | .xor _ _ _  => 0b01010
  | .or _ _ _   => 0b01011
  | .and _ _ _  => 0b01100
  | .not _ _    => 0b01101
  | .cmp _ _    => 0b01110
  | .jmp _      => 0b01111
  | .fadd _ _ _ => 0b10000
  | .fsub _ _ _ => 0b10001
  | .movf _ _   => 0b10010
  | .setb _ _   => 0b10011
  | .clrb _ _   => 0b10100
  | .tglb _ _   => 0b10101
  | .rol _ _    => 0b10110
  | .ror _ _    => 0b10111
  | .nop24      => 0b11000
  | .nop25      => 0b11001
  | .hlt        => 0b11010
  | .nop27      => 0b11011
  | .jlt _      => 0b11100
  | .jgt _      => 0b11101
  | .nop30      => 0b11110
  | .je _       => 0b11111

/-- The 11 bits after the opcode, unused bits 0 (R71 to R75, R86). -/
def Instr.operandBits : Instr → BitVec 11
  | .add d a b | .sub d a b | .mul d a b | .xor d a b | .or d a b | .and d a b | .fadd d a b | .fsub d a b =>
      0#2 ++ d ++ a ++ b
  | .movi d n | .rs d n | .ls d n | .setb d n | .clrb d n | .tglb d n | .rol d n | .ror d n | .movf d n =>
      0#1 ++ d ++ n
  | .ld d n | .st d n => 0#1 ++ d ++ n
  | .movr a b | .div a b | .not a b | .cmp a b => 0#5 ++ a ++ b
  | .jmp n | .jlt n | .jgt n | .je n => 0#4 ++ n
  | .nop24 | .nop25 | .nop27 | .nop30 | .hlt => 0#11

/-- The word of an instruction: opcode, unused bits 0, fields (30_encoding.md R86). -/
def encode (i : Instr) : Word := i.opcode ++ i.operandBits

/-- The unused bits of an instruction's format, as a mask over the word (R71 to R75, and format N for HLT and the
unassigned opcodes). -/
def Instr.unusedMask : Instr → Word
  | .add _ _ _ | .sub _ _ _ | .mul _ _ _ | .xor _ _ _ | .or _ _ _ | .and _ _ _ | .fadd _ _ _ | .fsub _ _ _ => 0x0600
  | .movi _ _ | .rs _ _ | .ls _ _ | .setb _ _ | .clrb _ _ | .tglb _ _ | .rol _ _ | .ror _ _ | .movf _ _ => 0x0400
  | .ld _ _ | .st _ _ => 0x0400
  | .movr _ _ | .div _ _ | .not _ _ | .cmp _ _ => 0x07C0
  | .jmp _ | .jlt _ | .jgt _ | .je _ => 0x0780
  | .nop24 | .nop25 | .nop27 | .nop30 | .hlt => 0x07FF

/-- The instruction read from bits numbered as spec/opcode_table.json numbers them: an instruction is one 16-bit word
(R70), bit 0 its least significant bit. A number of more than 16 bits is no instruction word. -/
def decodeTableWord (_nbits w : Nat) : Option Instr :=
  if w < 2 ^ 16 then some (decode (BitVec.ofNat 16 w)) else none

end Sys2Proof
end

