-- ==== Sys2Proof/Config.lean ====
section
/-! DEFINITION. What is fixed for the machine: the size of memory, and the model arguments of 00_scope.md R4 at the
defaults the spec gives them. The spec's rules are written for these defaults; the rest of the model consults the
arguments here, so that an alternative reading is one constant away. -/

namespace Sys2Proof.Config

/-- MEM_WORDS: the number of memory cells (00_scope.md R4, 20_memory.md R52). -/
abbrev memWords : Nat := 256

/-- REG_INIT: the value of R0..R6 at reset (decision D8, log 4). -/
@[simp] def regInit : Fin 7 → Word := fun _ => 0

/-- FLAGS_INIT: the value of FLAGS at reset (decision D8, log 4). -/
@[simp] def flagsInit : Word := 0

/-- MEM_INIT: what a cell that nothing has written holds (decision D8, log 3). -/
@[simp] def memInit : Nat → Word := fun _ => 0

/-- The two format-C fields: `hi` is bits 5:3 and `lo` is bits 2:0. -/
inductive FieldC where
  | hi
  | lo
  deriving DecidableEq, Repr

/-- DIV_DIVIDEND_FIELD: which field names DIV's dividend (decision D5, log 13). -/
@[simp] def divDividendField : FieldC := .hi

/-- SUB_OVF_CLEARS_FLAGS: whether SUB's underflow path clears the other flags (decision D4, log 12). DIV's zero
path does not consult it (DESIGN CHOICE, log 31). -/
@[simp] def subOvfClearsFlags : Bool := false

/-- REG7_IS_FLAGS_EVERYWHERE: whether field 111 names FLAGS outside MOVR (decision D2, log 10). -/
@[simp] def reg7IsFlagsEverywhere : Bool := false

/-- STOP_AT_IC: whether a run stops when pc reaches IC (decision D13, log 20). -/
@[simp] def stopAtIc : Bool := false

/-- FLOAT_CHECKS_REGS: whether FADD, FSUB and MOVF check their register fields (decision D9, log 16). -/
@[simp] def floatChecksRegs : Bool := false

end Sys2Proof.Config
end

