-- ==== Sys2Proof/Machine/State.lean ====
section
/-! DEFINITION. The state of the core as plain data (10_state.md), the reasons a step can stop, and the state after
reset (10_state.md R37, 70_reset_and_hazards.md R250). -/

namespace Sys2Proof.Machine

/-- The eight register identifiers {000, 001, ..., 110, FLAGS} (10_state.md R20). -/
inductive RegId where
  | r0 | r1 | r2 | r3 | r4 | r5 | r6 | flags
  deriving DecidableEq, Repr

/-- The register file: exactly eight registers (10_state.md R20), all 16 bits (R21, R23). -/
structure RegFile where
  r0 : Word
  r1 : Word
  r2 : Word
  r3 : Word
  r4 : Word
  r5 : Word
  r6 : Word
  flags : Word
  deriving DecidableEq, Repr

/-- A memory cell: a word address and the word it holds. The core addresses whole words only (20_memory.md R52, R56),
so the cell is a word and no byte order is chosen (log 2). -/
abbrev Cell := Nat × Word

/-- Memory (20_memory.md R52) as the list of the cells that differ from `Config.memInit`, addresses strictly rising
(`Memory.wf` in Machine/Ops.lean is this form). -/
structure Memory where
  cells : List Cell
  deriving DecidableEq, Repr

/-- The fatal faults with the detail each records (60_exceptions.md R220). -/
inductive FaultKind where
  /-- A memory address of 256 or more: the fetch, LD, ST. The detail is the address. -/
  | memoryFault (address : Nat)
  /-- A register field of 111 outside MOVR. The detail is the field's value and its place. -/
  | registerFault (field : RegField) (pos : FieldPos)
  /-- ROL or ROR with a count of 17 to 127. The detail is the count. -/
  | shiftCountFault (count : Imm)
  /-- A program line that the loader refuses, before the first step. The detail is the 1-based line number. -/
  | loadError (line : Nat)
  deriving DecidableEq, Repr

/-- The fault record (60_exceptions.md R222); its code is `FaultKind.code` of Machine/Ops.lean. -/
structure FaultRecord where
  kind : FaultKind
  /-- the pc of the faulting instruction -/
  pc : Pc
  /-- the fetched word, absent for a fetch MemoryFault -/
  word : Option Word
  deriving DecidableEq, Repr

/-- The state tuple (pc, x[0..6], FLAGS, Mem[0..255], halted, fault) of 10_state.md, and the load-time constant IC
(R35). -/
structure State where
  pc : Pc
  regs : RegFile
  mem : Memory
  halted : Bool
  fault : Option FaultRecord
  ic : Nat
  deriving DecidableEq, Repr

/-- Why there is no next state. No instruction's meaning answers one of these: an instruction that faults answers the
faulted state as its next state (log 1). -/
inductive Fault where
  /-- Raised by `step` in the halted state, from which the core takes no step (00_scope.md R10, 10_state.md R34).
  Safe: the hardware takes none either. -/
  | noStepHalted
  /-- Raised by `step` in the faulted state, from which the block takes no step (00_scope.md R10, 60_exceptions.md
  R221). It carries the record the host receives. Safe: the hardware takes none either. -/
  | noStepFaulted (record : FaultRecord)
  /-- Raised by `step` at pc = IC, only where `Config.stopAtIc` is true, which the spec's default is not (decision
  D13, log 20). Safe: the model stops where the hardware would go on. -/
  | noStepAtIc
  /-- Raised by the loader before the first step (60_exceptions.md R220 code 4). Safe: the run never starts. -/
  | loadAborted (kind : FaultKind)
  deriving DecidableEq, Repr

/-- Why a launch is not described by the spec (decisions D14, D23; 93_implementation_defined.md row 15). -/
inductive LaunchGap where
  /-- IC would be 0: the driver runs no step and the core has nothing to specify (70_reset_and_hazards.md R251). -/
  | noProgram
  /-- IC would be above 256 (R251). -/
  | tooLong
  /-- an empty line before a program line: the source does not say how line index and IC then agree (D23) -/
  | interiorEmptyLine
  deriving DecidableEq, Repr

/-- What the model does not describe. -/
inductive Refusal where
  /-- Raised by `exec` for an instruction that has no meaning yet; safe. Every instruction has one, so nothing raises
  it. -/
  | notModelled (mnemonic : String)
  /-- Raised by the loader for a launch outside the premises of 70_reset_and_hazards.md R251; safe. -/
  | launchNotDescribed (gap : LaunchGap)
  deriving DecidableEq, Repr

/-- What a step answers. -/
abbrev Result := Host.Outcome State Fault Refusal

/-- Every register at its reset value (10_state.md R37). -/
def RegFile.reset : RegFile where
  r0 := Config.regInit 0
  r1 := Config.regInit 1
  r2 := Config.regInit 2
  r3 := Config.regInit 3
  r4 := Config.regInit 4
  r5 := Config.regInit 5
  r6 := Config.regInit 6
  flags := Config.flagsInit

/-- The machine right after reset, before a program is loaded (70_reset_and_hazards.md R250, 10_state.md R37): no cell
is written. IC is the loader's count of program lines, 0 while none is loaded (log 5). -/
def State.reset : State where
  pc := 0
  regs := RegFile.reset
  mem := ⟨[]⟩
  halted := false
  fault := none
  ic := 0

end Sys2Proof.Machine
end

