-- ==== Sys2Proof/Machine/Flags.lean ====
section
/-! DEFINITION. The flag helpers of 10_state.md R24 over the FLAGS word, and the flag that a comparison sets. -/

namespace Sys2Proof.Machine

/-- OV, bit 3 (R24). -/
def maskOV : Word := 0b1000

/-- LT, bit 2 (R24). -/
def maskLT : Word := 0b0100

/-- GT, bit 1 (R24). -/
def maskGT : Word := 0b0010

/-- EQ, bit 0 (R24). -/
def maskEQ : Word := 0b0001

/-- `setFlag(m)` is `FLAGS <- FLAGS | m` (R24). -/
def setFlag (flags m : Word) : Word := flags ||| m

/-- `unsetFlag(m)` is `FLAGS <- FLAGS & ~m` (R24); no instruction uses it. -/
def unsetFlag (flags m : Word) : Word := flags &&& ~~~m

/-- `getFlag(m)` is `(FLAGS & m) != 0` (R24). -/
def getFlag (flags m : Word) : Bool := (flags &&& m) != 0

/-- `resetFlags()` is `FLAGS <- 0` (R24). -/
def clearedFlags : Word := 0

/-- The one flag CMP sets, by unsigned comparison (44_compare_jump.md R160). -/
def compareMask (a b : Word) : Word :=
  if a.toNat < b.toNat then maskLT else if a.toNat > b.toNat then maskGT else maskEQ

end Sys2Proof.Machine
end

