-- ==== Sys2Proof/Machine/Operands.lean ====
section
/-! DEFINITION. Operand decoding (30_encoding.md R76 to R78), the addressing mode (42_move_memory.md R124) and the
results that an instruction computes from its operands' values. -/

namespace Sys2Proof.Machine

/-- `regm(f)`: field 0..6 names R0..R6 and 7 names FLAGS (30_encoding.md R77). -/
def regm (f : RegField) : RegId :=
  match f.toNat with
  | 0 => .r0
  | 1 => .r1
  | 2 => .r2
  | 3 => .r3
  | 4 => .r4
  | 5 => .r5
  | 6 => .r6
  | _ => .flags

/-- `reg(f)`: field 0..6 names R0..R6 and 7 names no register (30_encoding.md R76). -/
def reg (f : RegField) : Option RegId :=
  if f = 7 then (if Config.reg7IsFlagsEverywhere then some .flags else none) else some (regm f)

/-- `zext_16` of the immediate (30_encoding.md R78). -/
def zextImm (n : Imm) : Word := n.setWidth 16

/-- A jump's absolute target (44_compare_jump.md R165). -/
def jumpTarget (address : Addr) : Pc := address.setWidth 9

/-- The effective address of LD and ST, an exact sum (42_move_memory.md R124). -/
def effectiveAddress (ic : Nat) (address : Addr) : Nat := address.toNat + ic

/-- An exact result that must fit in 16 bits: none where it is above 65535 (41_arithmetic.md R104). -/
def fit16 (r : Nat) : Option Word := if r > 65535 then none else some (BitVec.ofNat 16 r)

/-- `x[s1] + x[s2]`, none on overflow (41_arithmetic.md R100). -/
def addResult (a b : Word) : Option Word := fit16 (a.toNat + b.toNat)

/-- `a - b`, none where a < b (41_arithmetic.md R101). -/
def subResult (a b : Word) : Option Word :=
  if a.toNat < b.toNat then none else some (BitVec.ofNat 16 (a.toNat - b.toNat))

/-- `x[s1] * x[s2]`, none on overflow (41_arithmetic.md R102). -/
def mulResult (a b : Word) : Option Word := fit16 (a.toNat * b.toNat)

/-- Unsigned quotient and remainder, none for the divisor 0 (41_arithmetic.md R103). -/
def divResult (n dv : Word) : Option (Word × Word) :=
  if dv.toNat = 0 then none else some (BitVec.ofNat 16 (n.toNat / dv.toNat), BitVec.ofNat 16 (n.toNat % dv.toNat))

/-- `x >> n`, logical (43_shift_logic.md R140). -/
def shiftRight (x : Word) (n : Imm) : Word := x >>> n.toNat

/-- `trunc16(x << n)` (43_shift_logic.md R141). -/
def shiftLeft (x : Word) (n : Imm) : Word := x <<< n.toNat

/-- `trunc16(1 << n)`: bit n alone, or nothing where n >= 16 (46_bit_rotate.md R190). -/
def bitMask (n : Imm) : Word := 1#16 <<< n.toNat

/-- `trunc16(x | (1 << n))` (46_bit_rotate.md R190). -/
def setBit (x : Word) (n : Imm) : Word := x ||| bitMask n

/-- `(x & ~(1 << n)) & 0xFFFF` (46_bit_rotate.md R191). -/
def clearBit (x : Word) (n : Imm) : Word := x &&& ~~~bitMask n

/-- `trunc16(x ^ (1 << n))` (46_bit_rotate.md R192). -/
def toggleBit (x : Word) (n : Imm) : Word := x ^^^ bitMask n

/-- `trunc16((x << n) | (x >> (16 - n)))`, for n <= 16 (46_bit_rotate.md R193). -/
def rotateLeft (x : Word) (n : Imm) : Word := (x <<< n.toNat) ||| (x >>> (16 - n.toNat))

/-- `trunc16((x >> n) | (x << (16 - n)))`, for n <= 16 (46_bit_rotate.md R194). -/
def rotateRight (x : Word) (n : Imm) : Word := (x >>> n.toNat) ||| (x <<< (16 - n.toNat))

end Sys2Proof.Machine
end

