-- ==== Sys2Proof/Machine/Ops.lean ====
section
/-! DEFINITION. The named operations over registers, memory, the program counter and the fault record
(00_scope.md R7, 10_state.md R24 and R30, 20_memory.md R50 and R51, 60_exceptions.md R221 and R222). Every meaning is
written over these. -/

namespace Sys2Proof.Machine

/-! ### Registers -/

/-- The value of a register (00_scope.md R7). -/
def RegFile.get (f : RegFile) : RegId → Word
  | .r0 => f.r0
  | .r1 => f.r1
  | .r2 => f.r2
  | .r3 => f.r3
  | .r4 => f.r4
  | .r5 => f.r5
  | .r6 => f.r6
  | .flags => f.flags

/-- The register file with one register written (00_scope.md R7). -/
def RegFile.set (f : RegFile) (r : RegId) (v : Word) : RegFile :=
  match r with
  | .r0 => { f with r0 := v }
  | .r1 => { f with r1 := v }
  | .r2 => { f with r2 := v }
  | .r3 => { f with r3 := v }
  | .r4 => { f with r4 := v }
  | .r5 => { f with r5 := v }
  | .r6 => { f with r6 := v }
  | .flags => { f with flags := v }

/-- Read a register of the state. -/
def State.getReg (s : State) (r : RegId) : Word := s.regs.get r

/-- Write a register of the state. -/
def State.setReg (s : State) (r : RegId) (v : Word) : State := { s with regs := s.regs.set r v }

/-- `setFlag(m)` on the state (10_state.md R24). -/
def State.setFlag (s : State) (m : Word) : State := s.setReg .flags (Machine.setFlag s.regs.flags m)

/-- `resetFlags()` on the state (10_state.md R24). -/
def State.resetFlags (s : State) : State := s.setReg .flags clearedFlags

/-! ### Memory -/

/-- What a list of cells holds at an address. -/
def cellsRead : List Cell → Nat → Word
  | [], a => Config.memInit a
  | (b, w) :: rest, a => if a = b then w else cellsRead rest a

/-- The list without any cell at an address. -/
def cellsErase : List Cell → Nat → List Cell
  | [], _ => []
  | (b, w) :: rest, a => if a = b then cellsErase rest a else (b, w) :: cellsErase rest a

/-- The list with a cell at an address, kept in rising order. -/
def cellsPlace : List Cell → Nat → Word → List Cell
  | [], a, v => [(a, v)]
  | (b, w) :: rest, a, v =>
      if a < b then (a, v) :: (b, w) :: rest
      else if a = b then (a, v) :: rest
      else (b, w) :: cellsPlace rest a v

/-- A list of cells from address `lo` up is in canonical form: addresses strictly rising and below 256, no cell equal
to what an unlisted address reads as. -/
def cellsWf (lo : Nat) : List Cell → Bool
  | [] => true
  | (b, w) :: rest => lo ≤ b && b < Config.memWords && w != Config.memInit b && cellsWf (b + 1) rest

/-- The canonical form of memory. -/
def Memory.wf (m : Memory) : Bool := cellsWf 0 m.cells

/-- `Mem[a]` (20_memory.md R52). -/
def Memory.read (m : Memory) (a : Nat) : Word := cellsRead m.cells a

/-- `Mem[a] <- v`, in canonical form. -/
def Memory.write (m : Memory) (a : Nat) (v : Word) : Memory :=
  ⟨if v = Config.memInit a then cellsErase m.cells a else cellsPlace m.cells a v⟩

/-- `MemRead(a, 1)`: none where it raises MemoryFault(a) (20_memory.md R50). -/
def memRead (m : Memory) (a : Nat) : Option Word := if a < Config.memWords then some (m.read a) else none

/-- `MemWrite(a, 1, v)`: none where it raises MemoryFault(a) and writes nothing (20_memory.md R51). -/
def memWrite (m : Memory) (a : Nat) (v : Word) : Option Memory :=
  if a < Config.memWords then some (m.write a v) else none

/-- The fetch: MemRead at pc (10_state.md R33). -/
def State.fetch (s : State) : Option Word := memRead s.mem s.pc.toNat

/-! ### The program counter (10_state.md R29, R30) -/

/-- The end of an instruction that returned `(halted, next_pc)`. -/
def State.finish (s : State) (halted : Bool) (nextPc : Option Pc) : State :=
  if halted then { s with halted := true }
  else
    match nextPc with
    | none => { s with pc := s.pc + 1 }
    | some target => { s with pc := target }

/-- The default outcome `(false, None)`: advance by 1. -/
def State.advance (s : State) : State := s.finish false none

/-! ### Faults -/

/-- The fault's code (60_exceptions.md R220). -/
def FaultKind.code : FaultKind → Nat
  | .memoryFault _ => 1
  | .registerFault _ _ => 2
  | .shiftCountFault _ => 3
  | .loadError _ => 4

/-- Taking a fault (60_exceptions.md R221, R222): the faulted state differs in its fault record alone. The record's
word is the one at pc, which is the fetched word, and is absent where the fetch itself faults. -/
def State.raise (s : State) (k : FaultKind) : State := { s with fault := some ⟨k, s.pc, s.fetch⟩ }

/-- Why the block takes no step from a state (00_scope.md R10, decision D21), if it takes none. -/
def State.stopped (s : State) : Option Fault :=
  match s.fault with
  | some r => some (.noStepFaulted r)
  | none =>
      if s.halted then some .noStepHalted
      else if Config.stopAtIc && s.pc.toNat == s.ic then some .noStepAtIc
      else none

/-! ### Checking operands, in the order of 60_exceptions.md R224 -/

/-- Decode one register field by `reg`; field 111 raises RegisterFault (30_encoding.md R76). -/
def withReg (f : RegField) (pos : FieldPos) (s : State) (k : RegId → Result) : Result :=
  match reg f with
  | some r => k r
  | none => .next (s.raise (.registerFault f pos))

/-- The three register fields of format A. -/
def withRegsA (reg1 reg2 reg3 : RegField) (s : State) (k : RegId → RegId → RegId → State) : Result :=
  withReg reg1 .bits8to6 s fun x =>
    withReg reg2 .bits5to3 s fun y =>
      withReg reg3 .bits2to0 s fun z => .next (k x y z)

/-- The register field of formats B and D. -/
def withRegBD (reg1 : RegField) (s : State) (k : RegId → Result) : Result := withReg reg1 .bits9to7 s k

/-- The two register fields of format C. -/
def withRegsC (reg1 reg2 : RegField) (s : State) (k : RegId → RegId → State) : Result :=
  withReg reg1 .bits5to3 s fun x => withReg reg2 .bits2to0 s fun y => .next (k x y)

/-- The count check of ROL and ROR (46_bit_rotate.md R193, R194; decision D7). -/
def withRotateCount (n : Imm) (s : State) (k : State) : Result :=
  if n.toNat > 16 then .next (s.raise (.shiftCountFault n)) else .next k

/-! ### Ends of instructions -/

/-- Reset the flags, write a destination, advance: the end of every instruction that writes a register and cannot
overflow (decision D3 fixes the order). -/
def State.writeBack (s : State) (d : RegId) (v : Word) : State := (s.resetFlags.setReg d v).advance

/-- The end of ADD, SUB and MUL (41_arithmetic.md R100 to R102). On overflow OV is set and the destination gets 0;
whether the other flags are first cleared is the argument. -/
def State.arithEnd (s : State) (clearsFirst : Bool) (d : RegId) (r : Option Word) : State :=
  match r with
  | some v => s.writeBack d v
  | none => (((if clearsFirst then s.resetFlags else s).setFlag maskOV).setReg d 0).advance

/-- The end of DIV (41_arithmetic.md R103): the quotient to R0 and the remainder to R1. The zero path keeps the other
flags (decision D5, log 13). DESIGN CHOICE: it does so whatever SUB_OVF_CLEARS_FLAGS is, which only SUB consults; the
spec leaves open whether that argument covers DIV, and at its default both readings agree (log 31). -/
def State.divEnd (s : State) (r : Option (Word × Word)) : State :=
  match r with
  | some (q, m) => ((s.resetFlags.setReg .r0 q).setReg .r1 m).advance
  | none => (((s.setFlag maskOV).setReg .r0 0).setReg .r1 0).advance

/-- A conditional jump: read the flag, reset the flags, branch if it was set (44_compare_jump.md R162 to R164). -/
def State.jumpIf (s : State) (m : Word) (address : Addr) : State :=
  s.resetFlags.finish false (if getFlag s.regs.flags m then some (jumpTarget address) else none)

end Sys2Proof.Machine
end

