-- ==== Sys2Proof/Machine/Arith.lean ====
section
/-! DEFINITION. ADD, SUB, MUL, DIV (41_arithmetic.md). -/

namespace Sys2Proof.Machine

/-- ADD (R100). -/
def execAdd (reg1 reg2 reg3 : RegField) (s : State) : Result :=
  withRegsA reg1 reg2 reg3 s fun d s1 s2 => s.arithEnd false d (addResult (s.getReg s1) (s.getReg s2))

/-- SUB (R101); reg2 is the minuend. -/
def execSub (reg1 reg2 reg3 : RegField) (s : State) : Result :=
  withRegsA reg1 reg2 reg3 s fun d s1 s2 =>
    s.arithEnd Config.subOvfClearsFlags d (subResult (s.getReg s1) (s.getReg s2))

/-- MUL (R102). -/
def execMul (reg1 reg2 reg3 : RegField) (s : State) : Result :=
  withRegsA reg1 reg2 reg3 s fun d s1 s2 => s.arithEnd false d (mulResult (s.getReg s1) (s.getReg s2))

/-- DIV (R103); both operands are read before R0 and R1 are written. -/
def execDiv (reg1 reg2 : RegField) (s : State) : Result :=
  withRegsC reg1 reg2 s fun hi lo =>
    match Config.divDividendField with
    | .hi => s.divEnd (divResult (s.getReg hi) (s.getReg lo))
    | .lo => s.divEnd (divResult (s.getReg lo) (s.getReg hi))

end Sys2Proof.Machine
end

