-- ==== Sys2Proof/Machine/BitRotate.lean ====
section
/-! DEFINITION. SETB, CLRB, TGLB, ROL, ROR (46_bit_rotate.md). -/

namespace Sys2Proof.Machine

/-- SETB (R190). -/
def execSetb (reg1 : RegField) (imm : Imm) (s : State) : Result :=
  withRegBD reg1 s fun d => .next (s.writeBack d (setBit (s.getReg d) imm))

/-- CLRB (R191). -/
def execClrb (reg1 : RegField) (imm : Imm) (s : State) : Result :=
  withRegBD reg1 s fun d => .next (s.writeBack d (clearBit (s.getReg d) imm))

/-- TGLB (R192). -/
def execTglb (reg1 : RegField) (imm : Imm) (s : State) : Result :=
  withRegBD reg1 s fun d => .next (s.writeBack d (toggleBit (s.getReg d) imm))

/-- ROL (R193): the register field is checked before the count. -/
def execRol (reg1 : RegField) (imm : Imm) (s : State) : Result :=
  withRegBD reg1 s fun d => withRotateCount imm s (s.writeBack d (rotateLeft (s.getReg d) imm))

/-- ROR (R194): the register field is checked before the count. -/
def execRor (reg1 : RegField) (imm : Imm) (s : State) : Result :=
  withRegBD reg1 s fun d => withRotateCount imm s (s.writeBack d (rotateRight (s.getReg d) imm))

end Sys2Proof.Machine
end

