-- ==== Sys2Proof/Machine/CompareJump.lean ====
section
/-! DEFINITION. CMP, JMP, JLT, JGT, JE (44_compare_jump.md). -/

namespace Sys2Proof.Machine

/-- CMP (R160): one flag is set, no flag is reset. -/
def execCmp (reg1 reg2 : RegField) (s : State) : Result :=
  withRegsC reg1 reg2 s fun a b => (s.setFlag (compareMask (s.getReg a) (s.getReg b))).advance

/-- JMP (R161). -/
def execJmp (address : Addr) (s : State) : Result :=
  .next (s.resetFlags.finish false (some (jumpTarget address)))

/-- JLT (R162). -/
def execJlt (address : Addr) (s : State) : Result := .next (s.jumpIf maskLT address)

/-- JGT (R163). -/
def execJgt (address : Addr) (s : State) : Result := .next (s.jumpIf maskGT address)

/-- JE (R164). -/
def execJe (address : Addr) (s : State) : Result := .next (s.jumpIf maskEQ address)

end Sys2Proof.Machine
end

