-- ==== Sys2Proof/Machine/HaltNoop.lean ====
section
/-! DEFINITION. HLT and the four unassigned opcodes (47_halt_noop.md). -/

namespace Sys2Proof.Machine

/-- HLT (R210): halted is set and nothing else changes, the pc included. -/
def execHlt (s : State) : Result := .next (s.finish true none)

/-- Opcode 11000 (R211). -/
def execNop24 (s : State) : Result := .next s.advance

/-- Opcode 11001 (R211). -/
def execNop25 (s : State) : Result := .next s.advance

/-- Opcode 11011 (R211). -/
def execNop27 (s : State) : Result := .next s.advance

/-- Opcode 11110 (R211). -/
def execNop30 (s : State) : Result := .next s.advance

end Sys2Proof.Machine
end

