-- ==== Sys2Proof/Machine/MoveMemory.lean ====
section
/-! DEFINITION. MOVI, MOVR, LD, ST (42_move_memory.md). -/

namespace Sys2Proof.Machine

/-- MOVI (R120). -/
def execMovi (reg1 : RegField) (imm : Imm) (s : State) : Result :=
  withRegBD reg1 s fun d => .next (s.writeBack d (zextImm imm))

/-- MOVR (R121): field 111 is FLAGS in either place, the source is read before the flags are reset, and a write to
FLAGS stands. -/
def execMovr (reg1 reg2 : RegField) (s : State) : Result :=
  .next (s.writeBack (regm reg1) (s.getReg (regm reg2)))

/-- LD (R122). -/
def execLd (reg1 : RegField) (address : Addr) (s : State) : Result :=
  withRegBD reg1 s fun d =>
    match memRead s.mem (effectiveAddress s.ic address) with
    | some v => .next (s.writeBack d v)
    | none => .next (s.raise (.memoryFault (effectiveAddress s.ic address)))

/-- ST (R123). -/
def execSt (reg1 : RegField) (address : Addr) (s : State) : Result :=
  withRegBD reg1 s fun r =>
    match memWrite s.mem (effectiveAddress s.ic address) (s.getReg r) with
    | some m => .next ({ s.resetFlags with mem := m } : State).advance
    | none => .next (s.raise (.memoryFault (effectiveAddress s.ic address)))

end Sys2Proof.Machine
end

