-- ==== Sys2Proof/Machine/ReservedFloat.lean ====
section
/-! DEFINITION. FADD, FSUB, MOVF (45_reserved_float.md R180): no state change but the pc's advance. Whether they check
their register fields is the model argument FLOAT_CHECKS_REGS, false by default (decision D9, log 16). -/

namespace Sys2Proof.Machine

/-- FADD (R181). -/
def execFadd (reg1 reg2 reg3 : RegField) (s : State) : Result :=
  if Config.floatChecksRegs then withRegsA reg1 reg2 reg3 s fun _ _ _ => s.advance else .next s.advance

/-- FSUB (R182). -/
def execFsub (reg1 reg2 reg3 : RegField) (s : State) : Result :=
  if Config.floatChecksRegs then withRegsA reg1 reg2 reg3 s fun _ _ _ => s.advance else .next s.advance

/-- MOVF (R183); its immediate has no effect. -/
def execMovf (reg1 : RegField) (_imm : Imm) (s : State) : Result :=
  if Config.floatChecksRegs then withRegBD reg1 s fun _ => .next s.advance else .next s.advance

end Sys2Proof.Machine
end

