-- ==== Sys2Proof/Machine/ShiftLogic.lean ====
section
/-! DEFINITION. RS, LS, XOR, OR, AND, NOT (43_shift_logic.md). -/

namespace Sys2Proof.Machine

/-- RS (R140). -/
def execRs (reg1 : RegField) (imm : Imm) (s : State) : Result :=
  withRegBD reg1 s fun d => .next (s.writeBack d (shiftRight (s.getReg d) imm))

/-- LS (R141). -/
def execLs (reg1 : RegField) (imm : Imm) (s : State) : Result :=
  withRegBD reg1 s fun d => .next (s.writeBack d (shiftLeft (s.getReg d) imm))

/-- XOR (R142). -/
def execXor (reg1 reg2 reg3 : RegField) (s : State) : Result :=
  withRegsA reg1 reg2 reg3 s fun d s1 s2 => s.writeBack d (s.getReg s1 ^^^ s.getReg s2)

/-- OR (R143). -/
def execOr (reg1 reg2 reg3 : RegField) (s : State) : Result :=
  withRegsA reg1 reg2 reg3 s fun d s1 s2 => s.writeBack d (s.getReg s1 ||| s.getReg s2)

/-- AND (R144). -/
def execAnd (reg1 reg2 reg3 : RegField) (s : State) : Result :=
  withRegsA reg1 reg2 reg3 s fun d s1 s2 => s.writeBack d (s.getReg s1 &&& s.getReg s2)

/-- NOT (R145). -/
def execNot (reg1 reg2 : RegField) (s : State) : Result :=
  withRegsC reg1 reg2 s fun d r => s.writeBack d (~~~(s.getReg r))

end Sys2Proof.Machine
end

