-- ==== Sys2Proof/Machine/Dispatch.lean ====
section
/-! DEFINITION. The dispatch: one arm per row of 30_encoding.md R80, each one call of the row's meaning. -/

namespace Sys2Proof.Machine

def exec (i : Instr) (s : State) : Host.Outcome State Fault Refusal :=
  match i with
  | .add d a b => Sys2Proof.Machine.execAdd d a b s
  | .sub d a b => Sys2Proof.Machine.execSub d a b s
  | .movi d n => Sys2Proof.Machine.execMovi d n s
  | .movr d a => Sys2Proof.Machine.execMovr d a s
  | .ld d n => Sys2Proof.Machine.execLd d n s
  | .st d n => Sys2Proof.Machine.execSt d n s
  | .mul d a b => Sys2Proof.Machine.execMul d a b s
  | .div a b => Sys2Proof.Machine.execDiv a b s
  | .rs d n => Sys2Proof.Machine.execRs d n s
  | .ls d n => Sys2Proof.Machine.execLs d n s
  | .xor d a b => Sys2Proof.Machine.execXor d a b s
  | .or d a b => Sys2Proof.Machine.execOr d a b s
  | .and d a b => Sys2Proof.Machine.execAnd d a b s
  | .not d a => Sys2Proof.Machine.execNot d a s
  | .cmp a b => Sys2Proof.Machine.execCmp a b s
  | .jmp n => Sys2Proof.Machine.execJmp n s
  | .fadd d a b => Sys2Proof.Machine.execFadd d a b s
  | .fsub d a b => Sys2Proof.Machine.execFsub d a b s
  | .movf d n => Sys2Proof.Machine.execMovf d n s
  | .setb d n => Sys2Proof.Machine.execSetb d n s
  | .clrb d n => Sys2Proof.Machine.execClrb d n s
  | .tglb d n => Sys2Proof.Machine.execTglb d n s
  | .rol d n => Sys2Proof.Machine.execRol d n s
  | .ror d n => Sys2Proof.Machine.execRor d n s
  | .nop24 => Sys2Proof.Machine.execNop24 s
  | .nop25 => Sys2Proof.Machine.execNop25 s
  | .hlt => Sys2Proof.Machine.execHlt s
  | .nop27 => Sys2Proof.Machine.execNop27 s
  | .jlt n => Sys2Proof.Machine.execJlt n s
  | .jgt n => Sys2Proof.Machine.execJgt n s
  | .nop30 => Sys2Proof.Machine.execNop30 s
  | .je n => Sys2Proof.Machine.execJe n s

end Sys2Proof.Machine
end

