-- ==== Sys2Proof/Machine/Step.lean ====
section
/-! DEFINITION. One step of the core (10_state.md R33) and the placing of an instruction where the next step fetches. -/

namespace Sys2Proof.Machine

/-- Fetch, decode, execute and update, in one atomic step (R33). There is none from a halted or faulted state
(00_scope.md R10); a fetch at pc >= 256 raises MemoryFault(pc) (R31). -/
def step (s : State) : Host.Outcome State Fault Refusal :=
  match s.stopped with
  | some f => .fault f
  | none =>
      match s.fetch with
      | none => .next (s.raise (.memoryFault s.pc.toNat))
      | some w => exec (decode w) s

/-- The state with an instruction word at the cell the next fetch reads (an instruction is one word, so only the low
16 bits of `w` are stored). It stands for the loader's write of that word (log 6) and changes nothing else. -/
def State.withFetchWord (s : State) (_nbits w : Nat) : State :=
  match memWrite s.mem s.pc.toNat (BitVec.ofNat 16 w) with
  | some m => { s with mem := m }
  | none => s

end Sys2Proof.Machine
end

