-- ==== Sys2Proof/Machine/Loader.lean ====
section
/-! DEFINITION. The program loader's interface (70_reset_and_hazards.md R250, R251, R256): from text lines, or from
program words, to the state a run starts from. The host performs it once, before the first step. -/

namespace Sys2Proof.Machine

/-- A line without the whitespace around it (R256, "whitespace-trimmed"). -/
def trimLine (line : List Char) : List Char :=
  ((line.dropWhile Char.isWhitespace).reverse.dropWhile Char.isWhitespace).reverse

/-- The value of a binary digit (log 22). -/
def digitValue : Char → Option Nat
  | '0' => some 0
  | '1' => some 1
  | _ => none

/-- A base-2 numeral read on from the value of the digits before it, most significant digit first (20_memory.md
R56). -/
def parseDigits : Nat → List Char → Option Nat
  | acc, [] => some acc
  | acc, c :: rest =>
      match digitValue c with
      | some d => parseDigits (2 * acc + d) rest
      | none => none

/-- The word of a trimmed line that is not empty: none where it is no binary literal, or one of 2^16 or more
(decision D20). -/
def parseWord (line : List Char) : Option Word :=
  match parseDigits 0 line with
  | some n => if n < 2 ^ 16 then some (BitVec.ofNat 16 n) else none
  | none => none

/-- The 1-based number of the first line, from line `n` on, that is neither empty nor a program word. -/
def firstBadLine : Nat → List (List Char) → Option Nat
  | _, [] => none
  | n, line :: rest =>
      if line ≠ [] ∧ parseWord line = none then some n else firstBadLine (n + 1) rest

/-- The lines without the empty ones at the end. -/
def dropTrailingEmpty (lines : List (List Char)) : List (List Char) := (lines.reverse.dropWhile List.isEmpty).reverse

/-- Memory with words written from an address on. -/
def Memory.writeWords (m : Memory) (a : Nat) : List Word → Memory
  | [] => m
  | w :: rest => (m.write a w).writeWords (a + 1) rest

/-- The launch state of a program: reset, its words in Mem[0..IC-1] in order, IC their number (R250, R251). -/
def launchState (program : List Word) : State :=
  { State.reset with mem := State.reset.mem.writeWords 0 program, ic := program.length }

/-- Launch a program given as words, under the premise 1 <= IC <= 256 (R251). -/
def launch (program : List Word) : Result :=
  if program = [] then .refused (.launchNotDescribed .noProgram)
  else if program.length > Config.memWords then .refused (.launchNotDescribed .tooLong)
  else .next (launchState program)

/-- Load a program given as text lines (R256). A line that is not binary aborts the load with its number; an empty
line before a program line is not described (decision D23). -/
def load (lines : List (List Char)) : Result :=
  let trimmed := dropTrailingEmpty (lines.map trimLine)
  match firstBadLine 1 trimmed with
  | some n => .fault (.loadAborted (.loadError n))
  | none =>
      if [] ∈ trimmed then .refused (.launchNotDescribed .interiorEmptyLine)
      else launch (trimmed.filterMap parseWord)

end Sys2Proof.Machine
end

