-- ==== Sys2Proof/Machine/Observer.lean ====
section
/-! DEFINITION. The outputs of the block after a step (00_scope.md R9), and the text the host makes of them: the trace
line (60_exceptions.md R240) and the memory dump (R241). -/

namespace Sys2Proof.Machine

/-- The outputs after a step: the pc of the step's instruction, the registers, `halted`, the fault record (R9). -/
structure Outputs where
  pc : Pc
  regs : RegFile
  halted : Bool
  fault : Option FaultRecord
  deriving DecidableEq, Repr

/-- The outputs of the step from `before` to `after`. -/
def outputs (before after : State) : Outputs := ⟨before.pc, after.regs, after.halted, after.fault⟩

/-- The low `width` bits of a number as binary digits, most significant first. -/
def binaryText : Nat → Nat → List Char
  | 0, _ => []
  | width + 1, n => (if n.testBit width then '1' else '0') :: binaryText width n

/-- A word as 16 binary digits. -/
def wordText (w : Word) : List Char := binaryText 16 w.toNat

/-- A pc in binary, zero-padded to 7 digits and longer where it must be (decision D17). -/
def pcText (pc : Pc) : List Char :=
  binaryText (if pc.toNat < 128 then 7 else if pc.toNat < 256 then 8 else 9) pc.toNat

/-- The trace line of a step's outputs: nine fields with a space between (60_exceptions.md R240). -/
def traceLine (o : Outputs) : List Char :=
  List.intercalate [' ']
    (pcText o.pc :: [o.regs.r0, o.regs.r1, o.regs.r2, o.regs.r3, o.regs.r4, o.regs.r5, o.regs.r6, o.regs.flags].map wordText)

/-- The line the observer writes for the step from a state: none where there is no step and none for a step that
faults (R240, decision D17). -/
def stepLine (s : State) : Option (List Char) :=
  match step s with
  | .next t => if t.fault.isSome then none else some (traceLine (outputs s t))
  | .fault _ => none
  | .refused _ => none

/-- The trace of at most `k` steps, one line for each that does not fault. -/
def trace : Nat → State → List (List Char)
  | 0, _ => []
  | k + 1, s =>
      match step s with
      | .next t => if t.fault.isSome then [] else traceLine (outputs s t) :: trace k t
      | .fault _ => []
      | .refused _ => []

/-- The memory dump: every cell as 16 digits, in address order (R241). -/
def memoryDump (m : Memory) : List (List Char) := (List.range Config.memWords).map fun a => wordText (m.read a)

/-- What the host dumps of a state: memory after a HLT, nothing before one and nothing after a fault (R241). -/
def finalDump (s : State) : Option (List (List Char)) :=
  if s.halted && s.fault.isNone then some (memoryDump s.mem) else none

end Sys2Proof.Machine
end

