-- ==== Sys2Proof/WellFormed.lean ====
section
/-! DEFINITION. Which instructions have operands that exist: no register field is 111 where the instruction decodes
it (30_encoding.md R76, R77; the registers the syntax of R86 can write), and a rotate count is at most 16
(46_bit_rotate.md R193, R194). Every word decodes, the ill-formed ones too (R83): they fault when they execute. -/

namespace Sys2Proof

/-- The register fields that executing the instruction decodes by `reg` (30_encoding.md R76), with their places, in
field order from the most significant down (60_exceptions.md R224). MOVR decodes its fields by `regm` (R77) and the
opcodes without effect decode none (R81, R82). -/
def Instr.regFields : Instr → List (RegField × FieldPos)
  | .add d a b | .sub d a b | .mul d a b | .xor d a b | .or d a b | .and d a b =>
      [(d, .bits8to6), (a, .bits5to3), (b, .bits2to0)]
  | .movi d _ | .ld d _ | .st d _ | .rs d _ | .ls d _ | .setb d _ | .clrb d _ | .tglb d _ | .rol d _ | .ror d _ =>
      [(d, .bits9to7)]
  | .div a b | .not a b | .cmp a b => [(a, .bits5to3), (b, .bits2to0)]
  | .movr _ _ | .jmp _ | .jlt _ | .jgt _ | .je _ => []
  | .fadd _ _ _ | .fsub _ _ _ | .movf _ _ => []
  | .nop24 | .nop25 | .nop27 | .nop30 | .hlt => []

/-- The rotate count, for the two instructions that check it (46_bit_rotate.md R193, R194). -/
def Instr.rotateCount : Instr → Option Imm
  | .rol _ n | .ror _ n => some n
  | .add _ _ _ | .sub _ _ _ | .mul _ _ _ | .xor _ _ _ | .or _ _ _ | .and _ _ _ => none
  | .movi _ _ | .ld _ _ | .st _ _ | .rs _ _ | .ls _ _ | .setb _ _ | .clrb _ _ | .tglb _ _ => none
  | .div _ _ | .not _ _ | .cmp _ _ | .movr _ _ | .jmp _ | .jlt _ | .jgt _ | .je _ => none
  | .fadd _ _ _ | .fsub _ _ _ | .movf _ _ | .nop24 | .nop25 | .nop27 | .nop30 | .hlt => none

/-- Every decoded register field names a register, and a rotate count is at most 16. -/
def Instr.wellFormed (i : Instr) : Bool :=
  i.regFields.all (fun f => f.1 != 7) && i.rotateCount.all (fun n => n.toNat ≤ 16)

end Sys2Proof
end

