-- ==== Sys2Proof/Safety.lean ====
section
/-! DEFINITION. The terms that claims about the core are made in: running states, frames, the faulted state in the
spec's own words, the normal end of a run, the launch premises, and the invariant of every run. -/

namespace Sys2Proof

/-- The condition under which an instruction jumps (44_compare_jump.md R161 to R164), and its target. -/
def Instr.takenJump (i : Instr) (flags : Word) : Option Addr :=
  match i with
  | .jmp n => some n
  | .jlt n => if flags.getLsbD 2 then some n else none
  | .jgt n => if flags.getLsbD 1 then some n else none
  | .je n => if flags.getLsbD 0 then some n else none
  | .add _ _ _ | .sub _ _ _ | .mul _ _ _ | .xor _ _ _ | .or _ _ _ | .and _ _ _ | .fadd _ _ _ | .fsub _ _ _ => none
  | .movi _ _ | .rs _ _ | .ls _ _ | .setb _ _ | .clrb _ _ | .tglb _ _ | .rol _ _ | .ror _ _ | .movf _ _ => none
  | .ld _ _ | .st _ _ | .movr _ _ | .div _ _ | .not _ _ | .cmp _ _ => none
  | .nop24 | .nop25 | .nop27 | .nop30 | .hlt => none

end Sys2Proof

namespace Sys2Proof.Machine

/-- Neither halted nor faulted (00_scope.md R10). -/
abbrev State.Running (s : State) : Prop := s.halted = false ∧ s.fault = none

/-- The normal end of a run (70_reset_and_hazards.md R257): halted, and no fault. -/
abbrev State.NormalEnd (s : State) : Prop := s.halted = true ∧ s.fault = none

/-- `x[f]`, the register that a field names (00_scope.md R7; field 7 is FLAGS, as for MOVR). -/
def State.x (s : State) (f : RegField) : Word := s.getReg (regm f)

/-- The faulted state of 60_exceptions.md R221 with the record of R222, written out from those rules: everything as
before, and the record holds the pc and the word at pc, absent where pc is no address. -/
def State.faultedWith (s : State) (k : FaultKind) : State :=
  { s with fault := some ⟨k, s.pc, if s.pc.toNat < 256 then some (s.mem.read s.pc.toNat) else none⟩ }

/-- An instruction ends in RegisterFault on a field of 111. -/
def RegisterFaults (i : Instr) (s : State) : Prop :=
  ∃ p, exec i s = .next (s.faultedWith (.registerFault 7 p))

/-- The frame of an instruction that stores nothing: from `s` to `t`, every register but those listed, every memory
cell, `halted`, the fault record and IC are as before. The pc is not spoken of. -/
structure Frame (written : List RegId) (s t : State) : Prop where
  regs : ∀ r, r ∉ written → t.getReg r = s.getReg r
  mem : ∀ a, t.mem.read a = s.mem.read a
  halted : t.halted = s.halted
  fault : t.fault = s.fault
  ic : t.ic = s.ic

/-- The details a fault of an executing instruction can record (60_exceptions.md R220). -/
def FaultKind.possible : FaultKind → Bool
  | .memoryFault a => 256 ≤ a
  | .registerFault f _ => f == 7
  | .shiftCountFault n => 16 < n.toNat
  | .loadError _ => false

/-- The invariant of every run: memory is in canonical form, the pc is 0..256 (10_state.md R28, R31), IC is at most 256
(R35), a state is not both halted and faulted (60_exceptions.md R221), and a fault record holds the pc and the word at
the pc (R222) and a detail that R220 allows. -/
structure Inv (s : State) : Prop where
  mem : s.mem.wf = true
  pc : s.pc.toNat ≤ 256
  ic : s.ic ≤ 256
  oneEnd : s.fault ≠ none → s.halted = false
  record : ∀ r, s.fault = some r → s = s.faultedWith r.kind ∧ r.kind.possible = true

/-- The launch premises of a run of a program (70_reset_and_hazards.md R251): IC in range, the program in
Mem[0..IC-1], everything else at its reset value. -/
structure Launched (program : List Word) (s : State) : Prop where
  icLow : 1 ≤ s.ic
  icHigh : s.ic ≤ 256
  length : s.ic = program.length
  memWf : s.mem.wf = true
  programRegion : ∀ a (h : a < program.length), s.mem.read a = program[a]
  dataArea : ∀ a, program.length ≤ a → s.mem.read a = 0
  pc : s.pc = 0
  regs : ∀ r, s.getReg r = 0
  running : s.Running

end Sys2Proof.Machine
end

