-- ==== Sys2Proof/Certificates/Slice0/Obligations.lean ====
section
/-! DEFINITION. The statements for the provers, from the numbered rules of spec/.

`s.x f` is the register that a field names. `Frame written s t` says that from `s` to `t` nothing changed but the listed
registers and the pc. `s.faultedWith k` is the faulted state of 60_exceptions.md R221 and R222. Where a statement says
what field 111 does, or what a fault leaves, it rests on the spec's own decisions D2, D11 and D12 (logs 10, 18, 19). -/

open Sys2Proof Sys2Proof.Machine

/-! ### Operands and encodings -/

/-- 30_encoding.md R76 and R77: fields 0..6 name R0..R6; 7 names FLAGS for MOVR and no register elsewhere. The last part
is the spec's decision D2 (log 10). -/
def Obligations.RegisterFieldsNameRegisters : Prop :=
  (regm 0 = .r0 ∧ regm 1 = .r1 ∧ regm 2 = .r2 ∧ regm 3 = .r3 ∧ regm 4 = .r4 ∧ regm 5 = .r5 ∧ regm 6 = .r6 ∧
      regm 7 = .flags) ∧
    (∀ f : RegField, f ≠ 7 → reg f = some (regm f)) ∧ reg 7 = none

/-- Words written out bit by bit from 30_encoding.md R71 to R75 and R80, one for each format and family. The bit
positions are the spec's decision D1 (log 9). That MOVI with bit 10 set and JE with bits 10:7 set decode so, and that HLT
and the no-op use no bit of 10:0, are its decision D10 (R75, R79; log 17). -/
def Obligations.SpecWordsDecode : Prop :=
  decode 0b00000_00_010_000_001 = .add 2 0 1 ∧
  decode 0b00111_00000_010_011 = .div 2 3 ∧
  decode 0b00010_1_100_0000101 = .movi 4 5 ∧
  decode 0b00101_0_010_0000100 = .st 2 4 ∧
  decode 0b01101_00000_001_010 = .not 1 2 ∧
  decode 0b11100_0000_0000101 = .jlt 5 ∧
  decode 0b11111_1111_1111111 = .je 127 ∧
  decode 0b10001_00_111_111_111 = .fsub 7 7 7 ∧
  decode 0b10110_0_001_0000100 = .rol 1 4 ∧
  decode 0b11010_00000000000 = .hlt ∧
  decode 0b11110_00000000000 = .nop30

/-- Decoding the word of any instruction gives the instruction back, with every operand value (R70 to R75, R80). -/
def Obligations.DecodeOfEncode : Prop := ∀ i : Instr, decode (encode i) = i

/-- Encoding what a word decodes to gives the word with the format's unused bits 0: decoding drops those bits and no
other (30_encoding.md R71 to R75, R86). -/
def Obligations.EncodeOfDecode : Prop := ∀ w : Word, encode (decode w) = w &&& ~~~(decode w).unusedMask

/-- 30_encoding.md R79, the spec's decision D10 (log 17): words that differ only in unused bits decode alike. -/
def Obligations.UnusedBitsAreIgnored : Prop :=
  ∀ w u : Word, decode (w ^^^ (u &&& (decode w).unusedMask)) = decode w

/-! ### The step -/

/-- 10_state.md R33: a step from a running state fetches at pc, decodes and executes; a fetch at 256 or above raises
MemoryFault(pc). -/
def Obligations.StepRunsDecodedInstruction : Prop :=
  ∀ s : State, s.Running →
    (s.pc.toNat < 256 → step s = exec (decode (s.mem.read s.pc.toNat)) s) ∧
    (256 ≤ s.pc.toNat → ∃ t, step s = .next t ∧ t.fault.map (·.kind) = some (.memoryFault s.pc.toNat))

/-- 00_scope.md R10: a running state steps to exactly one of a running state, the state with `halted` set and all else
kept, and a faulted state; a halted or faulted state has no step. What the faulted state holds is `FaultsArePrecise`. -/
def Obligations.StepHasOneOfThreeOutcomes : Prop :=
  ∀ s : State,
    (s.Running → ∃ t, step s = .next t ∧
      (t.Running ∨ t = { s with halted := true } ∨ (t.halted = false ∧ t.fault ≠ none))) ∧
    (¬ s.Running → ∃ f, step s = .fault f)

/-- 10_state.md R30: after a step without a fault, the pc is unchanged if the core halted, the target if a jump was
taken, and pc + 1 (with no wrap) otherwise. -/
def Obligations.PcUpdate : Prop :=
  ∀ s t : State, step s = .next t → t.fault = none →
    (t.halted = true → t.pc = s.pc) ∧
    (t.halted = false →
      match (decode (s.mem.read s.pc.toNat)).takenJump s.regs.flags with
      | some n => t.pc.toNat = n.toNat
      | none => t.pc.toNat = s.pc.toNat + 1)

/-- 10_state.md R34: `halted` is false at reset, HLT sets it, no other instruction does, nothing clears it (a step begins
with it false), and while it is true there is no step. -/
def Obligations.OnlyHltHalts : Prop :=
  State.reset.halted = false ∧
    (∀ (i : Instr) (s t : State), exec i s = .next t → t.halted = (s.halted || i == .hlt)) ∧
    (∀ s t : State, step s = .next t → s.halted = false) ∧
    (∀ s : State, s.halted = true → ∃ f, step s = .fault f)

/-- 10_state.md R37 and 70_reset_and_hazards.md R250: the reset values. The zeros of the registers and of memory are
the spec's decision D8 (logs 3, 4). -/
def Obligations.ResetValues : Prop :=
  State.reset.pc = 0 ∧ State.reset.halted = false ∧ State.reset.fault = none ∧
    (∀ r, State.reset.getReg r = 0) ∧ (∀ a, State.reset.mem.read a = 0)

/-! ### Arithmetic -/

/-- 41_arithmetic.md R100. -/
def Obligations.AddResult : Prop :=
  ∀ (d a b : RegField) (s : State),
    (d ≠ 7 → a ≠ 7 → b ≠ 7 → ∃ t, exec (.add d a b) s = .next t ∧ t.pc = s.pc + 1 ∧ Frame [regm d, .flags] s t ∧
      if (s.x a).toNat + (s.x b).toNat > 65535
      then t.x d = 0 ∧ t.regs.flags = s.regs.flags ||| 0b1000
      else (t.x d).toNat = (s.x a).toNat + (s.x b).toNat ∧ t.regs.flags = 0) ∧
    (d = 7 ∨ a = 7 ∨ b = 7 → RegisterFaults (.add d a b) s)

/-- 41_arithmetic.md R101. That underflow keeps the other flags is the spec's decision D4 (log 12). -/
def Obligations.SubResult : Prop :=
  ∀ (d a b : RegField) (s : State),
    (d ≠ 7 → a ≠ 7 → b ≠ 7 → ∃ t, exec (.sub d a b) s = .next t ∧ t.pc = s.pc + 1 ∧ Frame [regm d, .flags] s t ∧
      if (s.x a).toNat < (s.x b).toNat
      then t.x d = 0 ∧ t.regs.flags = s.regs.flags ||| 0b1000
      else (t.x d).toNat = (s.x a).toNat - (s.x b).toNat ∧ t.regs.flags = 0) ∧
    (d = 7 ∨ a = 7 ∨ b = 7 → RegisterFaults (.sub d a b) s)

/-- 41_arithmetic.md R102. -/
def Obligations.MulResult : Prop :=
  ∀ (d a b : RegField) (s : State),
    (d ≠ 7 → a ≠ 7 → b ≠ 7 → ∃ t, exec (.mul d a b) s = .next t ∧ t.pc = s.pc + 1 ∧ Frame [regm d, .flags] s t ∧
      if (s.x a).toNat * (s.x b).toNat > 65535
      then t.x d = 0 ∧ t.regs.flags = s.regs.flags ||| 0b1000
      else (t.x d).toNat = (s.x a).toNat * (s.x b).toNat ∧ t.regs.flags = 0) ∧
    (d = 7 ∨ a = 7 ∨ b = 7 → RegisterFaults (.mul d a b) s)

/-- 41_arithmetic.md R103. Which field is the dividend and that division by zero keeps the other flags are the spec's
decision D5 (log 13). -/
def Obligations.DivResult : Prop :=
  ∀ (a b : RegField) (s : State),
    (a ≠ 7 → b ≠ 7 → ∃ t, exec (.div a b) s = .next t ∧ t.pc = s.pc + 1 ∧ Frame [.r0, .r1, .flags] s t ∧
      if (s.x b).toNat = 0
      then t.getReg .r0 = 0 ∧ t.getReg .r1 = 0 ∧ t.regs.flags = s.regs.flags ||| 0b1000
      else (t.getReg .r0).toNat = (s.x a).toNat / (s.x b).toNat ∧
        (t.getReg .r1).toNat = (s.x a).toNat % (s.x b).toNat ∧ t.regs.flags = 0) ∧
    (a = 7 ∨ b = 7 → RegisterFaults (.div a b) s)

/-- 60_exceptions.md R225: overflow, underflow and division by zero set OV, give the result registers 0 and go on at
pc + 1, with no fault. -/
def Obligations.OverflowIsNoFault : Prop :=
  ∀ (d a b : RegField) (s : State), d ≠ 7 → a ≠ 7 → b ≠ 7 →
    ((s.x a).toNat + (s.x b).toNat > 65535 → ∃ t, exec (.add d a b) s = .next t ∧ t.fault = s.fault ∧
      t.halted = s.halted ∧ t.pc = s.pc + 1 ∧ t.x d = 0 ∧ t.regs.flags.getLsbD 3 = true) ∧
    ((s.x a).toNat < (s.x b).toNat → ∃ t, exec (.sub d a b) s = .next t ∧ t.fault = s.fault ∧
      t.halted = s.halted ∧ t.pc = s.pc + 1 ∧ t.x d = 0 ∧ t.regs.flags.getLsbD 3 = true) ∧
    ((s.x a).toNat * (s.x b).toNat > 65535 → ∃ t, exec (.mul d a b) s = .next t ∧ t.fault = s.fault ∧
      t.halted = s.halted ∧ t.pc = s.pc + 1 ∧ t.x d = 0 ∧ t.regs.flags.getLsbD 3 = true) ∧
    ((s.x b).toNat = 0 → ∃ t, exec (.div a b) s = .next t ∧ t.fault = s.fault ∧
      t.halted = s.halted ∧ t.pc = s.pc + 1 ∧ t.getReg .r0 = 0 ∧ t.getReg .r1 = 0 ∧ t.regs.flags.getLsbD 3 = true)

/-- 41_arithmetic.md R104: quotient and remainder make up the dividend, the remainder below the divisor. -/
def Obligations.DivisionLaw : Prop :=
  ∀ (a b : RegField) (s t : State), a ≠ 7 → b ≠ 7 → s.x b ≠ 0 → exec (.div a b) s = .next t →
    (s.x a).toNat = (t.getReg .r0).toNat * (s.x b).toNat + (t.getReg .r1).toNat ∧
      (t.getReg .r1).toNat < (s.x b).toNat

/-! ### Moves, loads and stores -/

/-- 42_move_memory.md R120. -/
def Obligations.MoviResult : Prop :=
  ∀ (d : RegField) (n : Imm) (s : State),
    (d ≠ 7 → ∃ t, exec (.movi d n) s = .next t ∧ t.pc = s.pc + 1 ∧ Frame [regm d, .flags] s t ∧
      (t.x d).toNat = n.toNat ∧ t.regs.flags = 0) ∧
    (d = 7 → RegisterFaults (.movi d n) s)

/-- 42_move_memory.md R121, for every field, 111 (FLAGS) included. The order of read, reset and write is the spec's
decision D3 (log 11). -/
def Obligations.MovrResult : Prop :=
  ∀ (d a : RegField) (s : State), ∃ t, exec (.movr d a) s = .next t ∧ t.pc = s.pc + 1 ∧
    Frame [regm d, .flags] s t ∧ t.x d = s.x a ∧ (d ≠ 7 → t.regs.flags = 0)

/-- 42_move_memory.md R122 and R124. That the register field is checked before the address is decision D11 (log 18). -/
def Obligations.LdResult : Prop :=
  ∀ (d : RegField) (n : Addr) (s : State),
    (d ≠ 7 → n.toNat + s.ic < 256 → ∃ t, exec (.ld d n) s = .next t ∧ t.pc = s.pc + 1 ∧
      Frame [regm d, .flags] s t ∧ t.x d = s.mem.read (n.toNat + s.ic) ∧ t.regs.flags = 0) ∧
    (d ≠ 7 → 256 ≤ n.toNat + s.ic → exec (.ld d n) s = .next (s.faultedWith (.memoryFault (n.toNat + s.ic)))) ∧
    (d = 7 → RegisterFaults (.ld d n) s)

/-- 42_move_memory.md R123 and R124: the address stored to is `effectiveAddress s.ic n`, which is `n + IC`; that cell
gets the register and every other cell reads as before. -/
def Obligations.StResult : Prop :=
  ∀ (r : RegField) (n : Addr) (s : State),
    effectiveAddress s.ic n = n.toNat + s.ic ∧
    (r ≠ 7 → n.toNat + s.ic < 256 → ∃ t, exec (.st r n) s = .next t ∧ t.pc = s.pc + 1 ∧
      (∀ q, q ≠ .flags → t.getReg q = s.getReg q) ∧ t.regs.flags = 0 ∧
      t.halted = s.halted ∧ t.fault = s.fault ∧ t.ic = s.ic ∧
      ∀ a, if a = effectiveAddress s.ic n then t.mem.read a = s.x r else t.mem.read a = s.mem.read a) ∧
    (r ≠ 7 → 256 ≤ n.toNat + s.ic → exec (.st r n) s = .next (s.faultedWith (.memoryFault (n.toNat + s.ic)))) ∧
    (r = 7 → RegisterFaults (.st r n) s)

/-- 42_move_memory.md R123, corner cases: a store then a load at the same address field returns the stored value. -/
def Obligations.StoreThenLoad : Prop :=
  ∀ (r d : RegField) (n : Addr) (s t : State), r ≠ 7 → d ≠ 7 → n.toNat + s.ic < 256 → exec (.st r n) s = .next t →
    ∃ u, exec (.ld d n) t = .next u ∧ u.x d = s.x r

/-- 20_memory.md R62 and 70_reset_and_hazards.md R261: once a word is stored, a fetch from its cell decodes that
word. -/
def Obligations.FetchSeesStore : Prop :=
  ∀ (r : RegField) (n : Addr) (s t : State) (p : Pc), s.Running → r ≠ 7 → n.toNat + s.ic < 256 →
    exec (.st r n) s = .next t → p.toNat = n.toNat + s.ic →
    step { t with pc := p } = exec (decode (s.x r)) { t with pc := p }

/-! ### Shifts, logic, bits, rotates -/

/-- 43_shift_logic.md R140 and R141. That LS keeps 16 bits is the spec's decision D6 (log 14). -/
def Obligations.ShiftResults : Prop :=
  ∀ (d : RegField) (n : Imm) (s : State),
    (d ≠ 7 →
      (∃ t, exec (.rs d n) s = .next t ∧ t.pc = s.pc + 1 ∧ Frame [regm d, .flags] s t ∧
        (t.x d).toNat = (s.x d).toNat / 2 ^ n.toNat ∧ t.regs.flags = 0) ∧
      (∃ t, exec (.ls d n) s = .next t ∧ t.pc = s.pc + 1 ∧ Frame [regm d, .flags] s t ∧
        (t.x d).toNat = (s.x d).toNat * 2 ^ n.toNat % 2 ^ 16 ∧ t.regs.flags = 0)) ∧
    (d = 7 → RegisterFaults (.rs d n) s ∧ RegisterFaults (.ls d n) s)

/-- 43_shift_logic.md R142 to R144, bit by bit. -/
def Obligations.LogicResults : Prop :=
  ∀ (d a b : RegField) (s : State),
    (d ≠ 7 → a ≠ 7 → b ≠ 7 →
      (∃ t, exec (.xor d a b) s = .next t ∧ t.pc = s.pc + 1 ∧ Frame [regm d, .flags] s t ∧ t.regs.flags = 0 ∧
        ∀ j, (t.x d).getLsbD j = ((s.x a).getLsbD j != (s.x b).getLsbD j)) ∧
      (∃ t, exec (.or d a b) s = .next t ∧ t.pc = s.pc + 1 ∧ Frame [regm d, .flags] s t ∧ t.regs.flags = 0 ∧
        ∀ j, (t.x d).getLsbD j = ((s.x a).getLsbD j || (s.x b).getLsbD j)) ∧
      (∃ t, exec (.and d a b) s = .next t ∧ t.pc = s.pc + 1 ∧ Frame [regm d, .flags] s t ∧ t.regs.flags = 0 ∧
        ∀ j, (t.x d).getLsbD j = ((s.x a).getLsbD j && (s.x b).getLsbD j))) ∧
    (d = 7 ∨ a = 7 ∨ b = 7 →
      RegisterFaults (.xor d a b) s ∧ RegisterFaults (.or d a b) s ∧ RegisterFaults (.and d a b) s)

/-- 43_shift_logic.md R145. -/
def Obligations.NotResult : Prop :=
  ∀ (d a : RegField) (s : State),
    (d ≠ 7 → a ≠ 7 → ∃ t, exec (.not d a) s = .next t ∧ t.pc = s.pc + 1 ∧ Frame [regm d, .flags] s t ∧
      (t.x d).toNat = 65535 - (s.x a).toNat ∧ t.regs.flags = 0) ∧
    (d = 7 ∨ a = 7 → RegisterFaults (.not d a) s)

/-- 46_bit_rotate.md R190 to R192, bit by bit: bit n of the register is set, cleared or inverted and the others stay;
where n >= 16 all stay (decision D6, log 14). -/
def Obligations.BitResults : Prop :=
  ∀ (d : RegField) (n : Imm) (s : State),
    (d ≠ 7 →
      (∃ t, exec (.setb d n) s = .next t ∧ t.pc = s.pc + 1 ∧ Frame [regm d, .flags] s t ∧ t.regs.flags = 0 ∧
        ∀ j, j < 16 → (t.x d).getLsbD j = if j = n.toNat then true else (s.x d).getLsbD j) ∧
      (∃ t, exec (.clrb d n) s = .next t ∧ t.pc = s.pc + 1 ∧ Frame [regm d, .flags] s t ∧ t.regs.flags = 0 ∧
        ∀ j, j < 16 → (t.x d).getLsbD j = if j = n.toNat then false else (s.x d).getLsbD j) ∧
      (∃ t, exec (.tglb d n) s = .next t ∧ t.pc = s.pc + 1 ∧ Frame [regm d, .flags] s t ∧ t.regs.flags = 0 ∧
        ∀ j, j < 16 → (t.x d).getLsbD j = if j = n.toNat then !(s.x d).getLsbD j else (s.x d).getLsbD j)) ∧
    (d = 7 → RegisterFaults (.setb d n) s ∧ RegisterFaults (.clrb d n) s ∧ RegisterFaults (.tglb d n) s)

/-- 46_bit_rotate.md R193 and R194, bit by bit, for every count: up to 16 a rotation of the 16 bits, above 16 a
ShiftCountFault (the spec's decision D7, log 15); the register field is checked first (D11, log 18). -/
def Obligations.RotateResults : Prop :=
  ∀ (d : RegField) (n : Imm) (s : State),
    (d ≠ 7 → n.toNat ≤ 16 →
      (∃ t, exec (.rol d n) s = .next t ∧ t.pc = s.pc + 1 ∧ Frame [regm d, .flags] s t ∧ t.regs.flags = 0 ∧
        ∀ j, j < 16 → (t.x d).getLsbD ((j + n.toNat) % 16) = (s.x d).getLsbD j) ∧
      (∃ t, exec (.ror d n) s = .next t ∧ t.pc = s.pc + 1 ∧ Frame [regm d, .flags] s t ∧ t.regs.flags = 0 ∧
        ∀ j, j < 16 → (t.x d).getLsbD j = (s.x d).getLsbD ((j + n.toNat) % 16))) ∧
    (d ≠ 7 → 16 < n.toNat →
      exec (.rol d n) s = .next (s.faultedWith (.shiftCountFault n)) ∧
      exec (.ror d n) s = .next (s.faultedWith (.shiftCountFault n))) ∧
    (d = 7 → RegisterFaults (.rol d n) s ∧ RegisterFaults (.ror d n) s)

/-- 46_bit_rotate.md R194, corner cases: ROR by k undoes ROL by k for 0 <= k <= 16. -/
def Obligations.RotateRoundTrip : Prop :=
  ∀ (d : RegField) (n : Imm) (s t : State), d ≠ 7 → n.toNat ≤ 16 → exec (.rol d n) s = .next t →
    ∃ u, exec (.ror d n) t = .next u ∧ u.x d = s.x d

/-! ### Compare and jumps -/

/-- 44_compare_jump.md R160: one of LT, GT, EQ is set, every other bit of FLAGS stays, no register is written. -/
def Obligations.CmpResult : Prop :=
  ∀ (a b : RegField) (s : State),
    (a ≠ 7 → b ≠ 7 → ∃ t, exec (.cmp a b) s = .next t ∧ t.pc = s.pc + 1 ∧ Frame [.flags] s t ∧
      t.regs.flags = s.regs.flags |||
        (if (s.x a).toNat < (s.x b).toNat then 0b0100 else if (s.x a).toNat > (s.x b).toNat then 0b0010 else 0b0001)) ∧
    (a = 7 ∨ b = 7 → RegisterFaults (.cmp a b) s)

/-- 44_compare_jump.md R161, with the words that decode to it. That bits 10:7 are ignored is the spec's decision D10
(30_encoding.md R79, log 17), the bit positions its D1 (log 9). -/
def Obligations.JmpResult : Prop :=
  ∀ (n : Addr) (s : State),
    (∃ t, exec (.jmp n) s = .next t ∧ t.pc.toNat = n.toNat ∧ Frame [.flags] s t ∧ t.regs.flags = 0) ∧
    ∀ u : BitVec 4, decode (0b01111#5 ++ u ++ n) = .jmp n

/-- 44_compare_jump.md R162 to R164: the flag is read before FLAGS becomes 0, taken or not; only its bit decides. With
the words that decode to each: that bits 10:7 are ignored is the spec's decision D10 (30_encoding.md R79, log 17), the
bit positions its D1 (log 9). -/
def Obligations.ConditionalJumpResults : Prop :=
  ∀ (n : Addr) (s : State),
    (∀ u : BitVec 4, decode (0b11100#5 ++ u ++ n) = .jlt n ∧ decode (0b11101#5 ++ u ++ n) = .jgt n ∧
      decode (0b11111#5 ++ u ++ n) = .je n) ∧
    (∃ t, exec (.jlt n) s = .next t ∧ Frame [.flags] s t ∧ t.regs.flags = 0 ∧
      if s.regs.flags &&& 0b0100 ≠ 0 then t.pc.toNat = n.toNat else t.pc = s.pc + 1) ∧
    (∃ t, exec (.jgt n) s = .next t ∧ Frame [.flags] s t ∧ t.regs.flags = 0 ∧
      if s.regs.flags &&& 0b0010 ≠ 0 then t.pc.toNat = n.toNat else t.pc = s.pc + 1) ∧
    (∃ t, exec (.je n) s = .next t ∧ Frame [.flags] s t ∧ t.regs.flags = 0 ∧
      if s.regs.flags &&& 0b0001 ≠ 0 then t.pc.toNat = n.toNat else t.pc = s.pc + 1)

/-! ### Reserved floating point, halt, no-ops -/

/-- 45_reserved_float.md R180 to R183: the pc advances and nothing else changes, whatever the fields. That field 111
does not fault is the spec's decision D9 (log 16). -/
def Obligations.FloatOpcodesOnlyAdvance : Prop :=
  ∀ (d a b : RegField) (n : Imm) (s : State),
    exec (.fadd d a b) s = .next { s with pc := s.pc + 1 } ∧
    exec (.fsub d a b) s = .next { s with pc := s.pc + 1 } ∧
    exec (.movf d n) s = .next { s with pc := s.pc + 1 }

/-- 47_halt_noop.md R211, with the words that decode to each of the four opcodes. That bits 10:0 are ignored is the
spec's decision D10 (format N: 30_encoding.md R75, R79; log 17), the opcode's position its D1 (log 9), and that NOP is
written 0xC000 its own assembler syntax, D19 (R86, log 26). -/
def Obligations.NopsOnlyAdvance : Prop :=
  ∀ s : State,
    (exec .nop24 s = .next { s with pc := s.pc + 1 } ∧ exec .nop25 s = .next { s with pc := s.pc + 1 } ∧
      exec .nop27 s = .next { s with pc := s.pc + 1 } ∧ exec .nop30 s = .next { s with pc := s.pc + 1 }) ∧
    encode .nop24 = 0xC000 ∧
    ∀ low : BitVec 11, decode (0b11000#5 ++ low) = .nop24 ∧ decode (0b11001#5 ++ low) = .nop25 ∧
      decode (0b11011#5 ++ low) = .nop27 ∧ decode (0b11110#5 ++ low) = .nop30

/-- 47_halt_noop.md R210: HLT sets `halted` and changes nothing else, the pc included; no further step is taken
(how a step from a halted state answers is log 1). That its bits 10:0 are ignored is the spec's decision D10 (format N:
30_encoding.md R75, R79; log 17), the opcode's position its D1 (log 9). -/
def Obligations.HltHalts : Prop :=
  ∀ s : State,
    exec .hlt s = .next { s with halted := true } ∧
    (s.fault = none → step { s with halted := true } = .fault .noStepHalted) ∧
    ∀ low : BitVec 11, decode (0b11010#5 ++ low) = .hlt

/-! ### Faults -/

/-- 60_exceptions.md R224, 30_encoding.md R76: of the fields an instruction decodes, in field order, the first of 111
raises RegisterFault with its place, before a count or an address is looked at. The order is the spec's decision D11, the
record D12 (logs 18, 19). -/
def Obligations.FirstBadFieldFaults : Prop :=
  ∀ (i : Instr) (s : State) (before after : List (RegField × FieldPos)) (p : FieldPos),
    i.regFields = before ++ (7, p) :: after → (∀ f ∈ before, f.1 ≠ 7) →
    exec i s = .next (s.faultedWith (.registerFault 7 p))

/-- 30_encoding.md R83, 60_exceptions.md R225: an instruction whose operands exist completes without a fault, whatever
the values it computes on; LD and ST need their address inside memory. -/
def Obligations.ExistingOperandsNeverFault : Prop :=
  ∀ (i : Instr) (s : State), i.wellFormed = true →
    (∀ d n, i = .ld d n ∨ i = .st d n → n.toNat + s.ic < 256) →
    ∃ t, exec i s = .next t ∧ t.fault = s.fault

/-- 60_exceptions.md R221 to R223: a step that faults changes nothing but the fault record, which holds the pc and the
fetched word. Precision is the spec's decision D11, the record D12 (logs 18, 19). -/
def Obligations.FaultsArePrecise : Prop :=
  ∀ (s t : State) (r : FaultRecord), step s = .next t → t.fault = some r →
    t = s.faultedWith r.kind ∧ t.halted = false ∧ ∃ f, step t = .fault f

/-- 60_exceptions.md R220, 30_encoding.md R83: what a step's fault can come from, and the detail it records. -/
def Obligations.FaultCauses : Prop :=
  ∀ (s t : State) (r : FaultRecord), step s = .next t → t.fault = some r →
    (256 ≤ s.pc.toNat ∧ r.kind = .memoryFault s.pc.toNat) ∨
    (s.pc.toNat < 256 ∧
      ((∃ p, (7, p) ∈ (decode (s.mem.read s.pc.toNat)).regFields ∧ r.kind = .registerFault 7 p) ∨
        (∃ n, (decode (s.mem.read s.pc.toNat)).rotateCount = some n ∧ 16 < n.toNat ∧ r.kind = .shiftCountFault n) ∨
        (∃ d n, (decode (s.mem.read s.pc.toNat) = .ld d n ∨ decode (s.mem.read s.pc.toNat) = .st d n) ∧
          256 ≤ n.toNat + s.ic ∧ r.kind = .memoryFault (n.toNat + s.ic))))

/-! ### The whole machine -/

/-- 10_state.md R23: bits 15:4 of FLAGS become nonzero only through a MOVR to FLAGS; any other instruction keeps them or
clears them. -/
def Obligations.UpperFlagBitsOnlyByMovr : Prop :=
  ∀ (i : Instr) (s t : State), (∀ a, i ≠ .movr 7 a) → exec i s = .next t →
    t.regs.flags >>> 4 = 0 ∨ t.regs.flags >>> 4 = s.regs.flags >>> 4

/-- 20_memory.md R53: a memory cell changes only by ST, at its effective address, to the register's value. -/
def Obligations.OnlyStoreChangesMemory : Prop :=
  ∀ (i : Instr) (s t : State) (a : Nat), exec i s = .next t → t.mem.read a ≠ s.mem.read a →
    ∃ r n, i = .st r n ∧ a = n.toNat + s.ic ∧ t.mem.read a = s.x r

/-- 10_state.md R35: no instruction but LD and ST depends on IC. -/
def Obligations.OnlyLoadStoreUseIc : Prop :=
  ∀ (i : Instr) (s : State) (k : Nat), (∀ d n, i ≠ .ld d n ∧ i ≠ .st d n) →
    ∃ t, exec i s = .next t ∧ exec i { s with ic := k } = .next { t with ic := k }

/-- 20_memory.md R55, 10_state.md R35: in every run of any length, from any state, IC and the program region
Mem[0..IC-1] stay as they were. -/
def Obligations.RunsKeepProgramRegion : Prop :=
  ∀ (k : Nat) (s t : State), Sys2Proof.core.run k s = .next t →
    t.ic = s.ic ∧ ∀ a, a < s.ic → t.mem.read a = s.mem.read a

/-- The invariant holds at reset (`Inv`: canonical memory, pc 0..256, IC at most 256, not both halted and faulted, a
fault record that matches the state). -/
def Obligations.InvariantAtReset : Prop := Inv State.reset

/-- Every step keeps the invariant: 10_state.md R28 and R31 (pc never exceeds 256), R35, 60_exceptions.md R221 and R222,
and the canonical form of memory. -/
def Obligations.InvariantKeptByStep : Prop := ∀ s t : State, Inv s → step s = .next t → Inv t

/-! ### Loading and observing -/

/-- 70_reset_and_hazards.md R250 and R251: launching 1 to 256 program words gives the launch state the rule describes.
The zeros of the registers and of the data area are the spec's decision D8 (logs 3, 4). -/
def Obligations.LaunchMeetsPremises : Prop :=
  ∀ program : List Word, 1 ≤ program.length → program.length ≤ 256 →
    ∃ s, launch program = .next s ∧ Launched program s

/-- 70_reset_and_hazards.md R256: the first line that is not a binary word aborts the load with its 1-based number. What
counts as binary is logs 21 and 22. -/
def Obligations.LoadErrorNamesFirstBadLine : Prop :=
  ∀ (before after : List (List Char)) (bad : List Char),
    (∀ l ∈ before, trimLine l = [] ∨ parseWord (trimLine l) ≠ none) →
    trimLine bad ≠ [] → parseWord (trimLine bad) = none →
    load (before ++ bad :: after) = .fault (.loadAborted (.loadError (before.length + 1)))

/-- 20_memory.md R56, 60_exceptions.md R241, 70_reset_and_hazards.md R256: words written as the memory dump writes them
load as those words. -/
def Obligations.LoadReadsWordText : Prop :=
  ∀ program : List Word, program ≠ [] → load (program.map wordText) = launch program

/-- 60_exceptions.md R241: the dump has 256 lines of 16 digits, line a the binary text of Mem[a]. -/
def Obligations.DumpShowsEveryCell : Prop :=
  ∀ m : Memory, (memoryDump m).length = 256 ∧
    ∀ a, a < 256 → ∃ line, (memoryDump m)[a]? = some line ∧ line.length = 16 ∧ parseWord line = some (m.read a)
end

