-- ==== Sys2Proof/Laws/Decode.lean ====
section
/-! SUPPORT. What the field readings and the opcode bits of an assembled word are (30_encoding.md R71 to R75). -/

namespace Sys2Proof

theorem formatA_append (mk : RegField → RegField → RegField → Instr) (op : Opcode) (d a b : RegField) :
    formatA mk (op ++ (0#2 ++ d ++ a ++ b)) = mk d a b := by
  unfold formatA field8to6 field5to3 field2to0
  congr 1 <;>
  · ext j hj
    simp only [BitVec.getElem_extractLsb', BitVec.getLsbD_append]
    have hj3 : j = 0 ∨ j = 1 ∨ j = 2 := by omega
    rcases hj3 with rfl | rfl | rfl <;> simp

theorem formatBD_append (mk : RegField → BitVec 7 → Instr) (op : Opcode) (d : RegField) (n : BitVec 7) :
    formatBD mk (op ++ (0#1 ++ d ++ n)) = mk d n := by
  unfold formatBD field9to7 field6to0
  congr 1
  · ext j hj
    simp only [BitVec.getElem_extractLsb', BitVec.getLsbD_append]
    have hj3 : j = 0 ∨ j = 1 ∨ j = 2 := by omega
    rcases hj3 with rfl | rfl | rfl <;> simp
  · ext j hj
    simp only [BitVec.getElem_extractLsb', BitVec.getLsbD_append]
    have hj11 : j < 11 := by omega
    simp [hj, hj11]

theorem formatC_append (mk : RegField → RegField → Instr) (op : Opcode) (a b : RegField) :
    formatC mk (op ++ (0#5 ++ a ++ b)) = mk a b := by
  unfold formatC field5to3 field2to0
  congr 1 <;>
  · ext j hj
    simp only [BitVec.getElem_extractLsb', BitVec.getLsbD_append]
    have hj3 : j = 0 ∨ j = 1 ∨ j = 2 := by omega
    rcases hj3 with rfl | rfl | rfl <;> simp

theorem formatE_append (mk : Addr → Instr) (op : Opcode) (n : Addr) : formatE mk (op ++ (0#4 ++ n)) = mk n := by
  unfold formatE field6to0
  congr 1
  ext j hj
  simp only [BitVec.getElem_extractLsb', BitVec.getLsbD_append]
  have hj11 : j < 11 := by omega
  simp [hj, hj11]

/-- Bit `11 + k` of an assembled word is bit `k` of its opcode (R70). -/
theorem opcode_bit (op : Opcode) (low : BitVec 11) (k : Nat) :
    BitVec.getLsbD (op ++ low : Word) (11 + k) = op.getLsbD k := by
  simp only [BitVec.getLsbD_append]
  rw [if_neg (by omega), Nat.add_sub_cancel_left]

end Sys2Proof
end

