-- ==== Sys2Proof/Laws/Memory.lean ====
section
/-! SUPPORT. Memory: what a read gives after a write, that every write keeps the canonical form, and that memories in
canonical form which read alike are equal. -/

namespace Sys2Proof.Machine

/-! ### Lists of cells -/

theorem cellsWf_cons {lo b : Nat} {w : Word} {rest : List Cell} :
    cellsWf lo ((b, w) :: rest) = true ↔
      lo ≤ b ∧ b < 256 ∧ w ≠ Config.memInit b ∧ cellsWf (b + 1) rest = true := by
  simp [cellsWf, and_assoc]

theorem cellsWf_mono {lo hi : Nat} {cells : List Cell} (hle : lo ≤ hi) (h : cellsWf hi cells = true) :
    cellsWf lo cells = true := by
  cases cells with
  | nil => rfl
  | cons c rest =>
    obtain ⟨b, w⟩ := c
    rw [cellsWf_cons] at h ⊢
    exact ⟨by omega, h.2⟩

/-- Below the first listed address every cell reads as unlisted. -/
theorem cellsRead_below {lo a : Nat} {cells : List Cell} (h : cellsWf lo cells = true) (ha : a < lo) :
    cellsRead cells a = Config.memInit a := by
  induction cells generalizing lo with
  | nil => rfl
  | cons c rest ih =>
    obtain ⟨b, w⟩ := c
    rw [cellsWf_cons] at h
    have hne : a ≠ b := by omega
    simp only [cellsRead, if_neg hne]
    exact ih h.2.2.2 (by omega)

/-- At 256 and above every cell reads as unlisted. -/
theorem cellsRead_above {lo a : Nat} {cells : List Cell} (h : cellsWf lo cells = true) (ha : 256 ≤ a) :
    cellsRead cells a = Config.memInit a := by
  induction cells generalizing lo with
  | nil => rfl
  | cons c rest ih =>
    obtain ⟨b, w⟩ := c
    rw [cellsWf_cons] at h
    have hne : a ≠ b := by omega
    simp only [cellsRead, if_neg hne]
    exact ih h.2.2.2

theorem cellsErase_wf {lo a : Nat} {cells : List Cell} (h : cellsWf lo cells = true) :
    cellsWf lo (cellsErase cells a) = true := by
  induction cells generalizing lo with
  | nil => rfl
  | cons c rest ih =>
    obtain ⟨b, w⟩ := c
    rw [cellsWf_cons] at h
    unfold cellsErase
    split
    · exact cellsWf_mono (by omega) (ih h.2.2.2)
    · exact cellsWf_cons.mpr ⟨h.1, h.2.1, h.2.2.1, ih h.2.2.2⟩

theorem cellsPlace_wf {lo a : Nat} {v : Word} {cells : List Cell} (h : cellsWf lo cells = true) (hlo : lo ≤ a)
    (ha : a < 256) (hv : v ≠ Config.memInit a) : cellsWf lo (cellsPlace cells a v) = true := by
  induction cells generalizing lo with
  | nil => exact cellsWf_cons.mpr ⟨hlo, ha, hv, rfl⟩
  | cons c rest ih =>
    obtain ⟨b, w⟩ := c
    rw [cellsWf_cons] at h
    unfold cellsPlace
    split
    · exact cellsWf_cons.mpr ⟨hlo, ha, hv, cellsWf_cons.mpr ⟨by omega, h.2⟩⟩
    · split
      · rename_i heq
        subst heq
        exact cellsWf_cons.mpr ⟨hlo, ha, hv, h.2.2.2⟩
      · exact cellsWf_cons.mpr ⟨h.1, h.2.1, h.2.2.1, ih h.2.2.2 (by omega)⟩

theorem cellsRead_erase {a c : Nat} {cells : List Cell} :
    cellsRead (cellsErase cells a) c = if c = a then Config.memInit c else cellsRead cells c := by
  induction cells with
  | nil => simp [cellsErase, cellsRead]
  | cons x rest ih =>
    obtain ⟨b, w⟩ := x
    unfold cellsErase
    by_cases hab : a = b
    · subst hab
      rw [if_pos rfl, ih]
      by_cases hca : c = a <;> simp [cellsRead, hca]
    · rw [if_neg hab]
      simp only [cellsRead, ih]
      by_cases hcb : c = b
      · subst hcb
        rw [if_pos rfl, if_neg (Ne.symm hab), if_pos rfl]
      · simp [hcb]

theorem cellsRead_place {a c : Nat} {v : Word} {cells : List Cell} :
    cellsRead (cellsPlace cells a v) c = if c = a then v else cellsRead cells c := by
  induction cells with
  | nil => simp [cellsPlace, cellsRead]
  | cons x rest ih =>
    obtain ⟨b, w⟩ := x
    unfold cellsPlace
    split
    · simp [cellsRead]
    · split
      · rename_i heq
        subst heq
        by_cases hca : c = a <;> simp [cellsRead, hca]
      · rename_i hne
        simp only [cellsRead, ih]
        by_cases hcb : c = b
        · subst hcb
          rw [if_pos rfl, if_neg (Ne.symm hne), if_pos rfl]
        · simp [hcb]

/-- Two canonical lists that read alike are equal. -/
theorem cells_ext {lo lo' : Nat} {xs ys : List Cell} (hx : cellsWf lo xs = true) (hy : cellsWf lo' ys = true)
    (h : ∀ a, cellsRead xs a = cellsRead ys a) : xs = ys := by
  induction xs generalizing lo lo' ys with
  | nil =>
    cases ys with
    | nil => rfl
    | cons y rest =>
      obtain ⟨b, w⟩ := y
      have hb := h b
      rw [cellsWf_cons] at hy
      simp only [cellsRead] at hb
      exact absurd hb.symm hy.2.2.1
  | cons x rest ih =>
    obtain ⟨b, w⟩ := x
    have hx' := cellsWf_cons.mp hx
    cases ys with
    | nil =>
      have hb := h b
      simp only [cellsRead] at hb
      exact absurd hb hx'.2.2.1
    | cons y rest' =>
      obtain ⟨c, v⟩ := y
      have hy' := cellsWf_cons.mp hy
      have hbc : b = c := by
        rcases Nat.lt_trichotomy b c with hlt | heq | hgt
        · have hb := h b
          rw [cellsRead_below (cellsWf_cons.mpr ⟨Nat.le_refl c, hy'.2⟩) hlt] at hb
          simp only [cellsRead] at hb
          exact absurd hb hx'.2.2.1
        · exact heq
        · have hc := h c
          rw [cellsRead_below (cellsWf_cons.mpr ⟨Nat.le_refl b, hx'.2⟩) hgt] at hc
          simp only [cellsRead] at hc
          exact absurd hc.symm hy'.2.2.1
      subst hbc
      have hwv : w = v := by
        have hb := h b
        simpa [cellsRead] using hb
      subst hwv
      have hrest : rest = rest' := by
        apply ih hx'.2.2.2 hy'.2.2.2
        intro a
        by_cases hab : a = b
        · rw [hab, cellsRead_below hx'.2.2.2 (Nat.lt_succ_self b), cellsRead_below hy'.2.2.2 (Nat.lt_succ_self b)]
        · have ha := h a
          simpa only [cellsRead, if_neg hab] using ha
      rw [hrest]

/-! ### Memories -/

/-- A write inside memory keeps the canonical form. -/
theorem Memory.write_wf {m : Memory} {a : Nat} {v : Word} (h : m.wf = true) (ha : a < 256) :
    (m.write a v).wf = true := by
  simp only [Memory.wf, Memory.write]
  split
  · exact cellsErase_wf h
  · rename_i hv
    exact cellsPlace_wf h (Nat.zero_le a) ha hv

/-- A read after a write: the written cell has the value, every other cell is as before (20_memory.md R51). -/
theorem Memory.read_write (m : Memory) (a : Nat) (v : Word) (c : Nat) :
    (m.write a v).read c = if c = a then v else m.read c := by
  simp only [Memory.read, Memory.write]
  split
  · rename_i hv
    rw [cellsRead_erase]
    by_cases hca : c = a
    · subst hca; rw [if_pos rfl, if_pos rfl, hv]
    · rw [if_neg hca, if_neg hca]
  · exact cellsRead_place

/-- Equal memories are equal data. -/
theorem Memory.ext_read {m m' : Memory} (h : m.wf = true) (h' : m'.wf = true) (hr : ∀ a, m.read a = m'.read a) :
    m = m' := by
  obtain ⟨xs⟩ := m
  obtain ⟨ys⟩ := m'
  exact congrArg Memory.mk (cells_ext h h' hr)

/-- Nothing lies at 256 and above. -/
theorem Memory.read_outside {m : Memory} (h : m.wf = true) {a : Nat} (ha : 256 ≤ a) :
    m.read a = Config.memInit a := cellsRead_above h ha

theorem reset_mem_wf : State.reset.mem.wf = true := rfl

/-- MemRead inside memory (20_memory.md R50). -/
theorem memRead_inside {m : Memory} {a : Nat} (h : a < 256) : memRead m a = some (m.read a) := if_pos h

/-- MemRead outside memory (20_memory.md R50). -/
theorem memRead_outside {m : Memory} {a : Nat} (h : 256 ≤ a) : memRead m a = none := if_neg (Nat.not_lt.mpr h)

/-- MemWrite inside memory (20_memory.md R51). -/
theorem memWrite_inside {m : Memory} {a : Nat} {v : Word} (h : a < 256) : memWrite m a v = some (m.write a v) :=
  if_pos h

/-- MemWrite outside memory (20_memory.md R51). -/
theorem memWrite_outside {m : Memory} {a : Nat} {v : Word} (h : 256 ≤ a) : memWrite m a v = none := if_neg (Nat.not_lt.mpr h)

/-- Everything MemWrite can do where it answers a memory. -/
theorem memWrite_some {m m' : Memory} {a : Nat} {v : Word} (h : memWrite m a v = some m') :
    a < 256 ∧ m' = m.write a v := by
  unfold memWrite at h
  split at h
  · exact ⟨‹_›, (Option.some.inj h).symm⟩
  · cases h

/-- MemWrite keeps the canonical form. -/
theorem memWrite_wf {m m' : Memory} {a : Nat} {v : Word} (hwf : m.wf = true) (h : memWrite m a v = some m') :
    m'.wf = true := by
  obtain ⟨ha, rfl⟩ := memWrite_some h
  exact Memory.write_wf hwf ha

end Sys2Proof.Machine
end

