-- ==== Sys2Proof/Laws/State.lean ====
section
/-! SUPPORT. What each update of the state does to each field, so that no proof unfolds a record update. -/

namespace Sys2Proof.Machine

/-! ### Registers: read after write -/

@[simp] theorem RegFile.get_set_same (f : RegFile) (r : RegId) (v : Word) : (f.set r v).get r = v := by
  cases r <;> rfl

theorem RegFile.get_set_ne (f : RegFile) {r q : RegId} (v : Word) (h : q ≠ r) : (f.set r v).get q = f.get q := by
  cases r <;> cases q <;> first | rfl | exact absurd rfl h

theorem RegFile.get_set (f : RegFile) (r q : RegId) (v : Word) :
    (f.set r v).get q = if q = r then v else f.get q := by
  by_cases h : q = r
  · subst h; simp
  · rw [RegFile.get_set_ne f v h, if_neg h]

/-- Two register files that read alike are equal. -/
theorem RegFile.ext_get {f g : RegFile} (h : ∀ r, f.get r = g.get r) : f = g := by
  obtain ⟨⟩ := f
  obtain ⟨⟩ := g
  have h0 := h .r0; have h1 := h .r1; have h2 := h .r2; have h3 := h .r3
  have h4 := h .r4; have h5 := h .r5; have h6 := h .r6; have h7 := h .flags
  simp_all [RegFile.get]

theorem RegFile.flags_eq_get (f : RegFile) : f.flags = f.get .flags := rfl

theorem State.getReg_flags (s : State) : s.getReg .flags = s.regs.flags := rfl

/-! ### `setReg`: writes one register and nothing else -/

@[simp] theorem State.setReg_pc (s : State) (r : RegId) (v : Word) : (s.setReg r v).pc = s.pc := rfl
@[simp] theorem State.setReg_regs (s : State) (r : RegId) (v : Word) : (s.setReg r v).regs = s.regs.set r v := rfl
@[simp] theorem State.setReg_mem (s : State) (r : RegId) (v : Word) : (s.setReg r v).mem = s.mem := rfl
@[simp] theorem State.setReg_halted (s : State) (r : RegId) (v : Word) : (s.setReg r v).halted = s.halted := rfl
@[simp] theorem State.setReg_fault (s : State) (r : RegId) (v : Word) : (s.setReg r v).fault = s.fault := rfl
@[simp] theorem State.setReg_ic (s : State) (r : RegId) (v : Word) : (s.setReg r v).ic = s.ic := rfl

theorem State.getReg_setReg (s : State) (r q : RegId) (v : Word) :
    (s.setReg r v).getReg q = if q = r then v else s.getReg q := RegFile.get_set s.regs r q v

/-! ### `setFlag` and `resetFlags`: write FLAGS and nothing else -/

@[simp] theorem State.setFlag_pc (s : State) (m : Word) : (s.setFlag m).pc = s.pc := rfl
@[simp] theorem State.setFlag_mem (s : State) (m : Word) : (s.setFlag m).mem = s.mem := rfl
@[simp] theorem State.setFlag_halted (s : State) (m : Word) : (s.setFlag m).halted = s.halted := rfl
@[simp] theorem State.setFlag_fault (s : State) (m : Word) : (s.setFlag m).fault = s.fault := rfl
@[simp] theorem State.setFlag_ic (s : State) (m : Word) : (s.setFlag m).ic = s.ic := rfl

theorem State.getReg_setFlag (s : State) (m : Word) (q : RegId) :
    (s.setFlag m).getReg q = if q = .flags then s.getReg .flags ||| m else s.getReg q :=
  RegFile.get_set s.regs .flags q _

@[simp] theorem State.resetFlags_pc (s : State) : s.resetFlags.pc = s.pc := rfl
@[simp] theorem State.resetFlags_mem (s : State) : s.resetFlags.mem = s.mem := rfl
@[simp] theorem State.resetFlags_halted (s : State) : s.resetFlags.halted = s.halted := rfl
@[simp] theorem State.resetFlags_fault (s : State) : s.resetFlags.fault = s.fault := rfl
@[simp] theorem State.resetFlags_ic (s : State) : s.resetFlags.ic = s.ic := rfl

theorem State.getReg_resetFlags (s : State) (q : RegId) :
    s.resetFlags.getReg q = if q = .flags then 0 else s.getReg q := RegFile.get_set s.regs .flags q _

/-! ### `finish` and `advance`: write `halted` or the pc and nothing else (10_state.md R30) -/

@[simp] theorem State.finish_regs (s : State) (h : Bool) (n : Option Pc) : (s.finish h n).regs = s.regs := by
  cases h <;> cases n <;> rfl
@[simp] theorem State.finish_mem (s : State) (h : Bool) (n : Option Pc) : (s.finish h n).mem = s.mem := by
  cases h <;> cases n <;> rfl
@[simp] theorem State.finish_fault (s : State) (h : Bool) (n : Option Pc) : (s.finish h n).fault = s.fault := by
  cases h <;> cases n <;> rfl
@[simp] theorem State.finish_ic (s : State) (h : Bool) (n : Option Pc) : (s.finish h n).ic = s.ic := by
  cases h <;> cases n <;> rfl
@[simp] theorem State.finish_false_halted (s : State) (n : Option Pc) : (s.finish false n).halted = s.halted := by
  cases n <;> rfl
@[simp] theorem State.finish_false_none_pc (s : State) : (s.finish false none).pc = s.pc + 1 := rfl
@[simp] theorem State.finish_false_some_pc (s : State) (p : Pc) : (s.finish false (some p)).pc = p := rfl
@[simp] theorem State.finish_true (s : State) (n : Option Pc) : s.finish true n = { s with halted := true } := rfl

@[simp] theorem State.advance_pc (s : State) : s.advance.pc = s.pc + 1 := rfl
@[simp] theorem State.advance_regs (s : State) : s.advance.regs = s.regs := rfl
@[simp] theorem State.advance_mem (s : State) : s.advance.mem = s.mem := rfl
@[simp] theorem State.advance_halted (s : State) : s.advance.halted = s.halted := rfl
@[simp] theorem State.advance_fault (s : State) : s.advance.fault = s.fault := rfl
@[simp] theorem State.advance_ic (s : State) : s.advance.ic = s.ic := rfl
@[simp] theorem State.advance_getReg (s : State) (q : RegId) : s.advance.getReg q = s.getReg q := rfl

/-! ### `raise`: writes the fault record and nothing else (60_exceptions.md R221) -/

@[simp] theorem State.raise_pc (s : State) (k : FaultKind) : (s.raise k).pc = s.pc := rfl
@[simp] theorem State.raise_regs (s : State) (k : FaultKind) : (s.raise k).regs = s.regs := rfl
@[simp] theorem State.raise_mem (s : State) (k : FaultKind) : (s.raise k).mem = s.mem := rfl
@[simp] theorem State.raise_halted (s : State) (k : FaultKind) : (s.raise k).halted = s.halted := rfl
@[simp] theorem State.raise_fault (s : State) (k : FaultKind) : (s.raise k).fault = some ⟨k, s.pc, s.fetch⟩ := rfl
@[simp] theorem State.raise_ic (s : State) (k : FaultKind) : (s.raise k).ic = s.ic := rfl

end Sys2Proof.Machine
end

