-- ==== Sys2Proof/Laws/Ops.lean ====
section
/-! SUPPORT. One lemma for each shared operation, saying everything it can do. -/

namespace Sys2Proof.Machine

/-! ### Register fields (30_encoding.md R76, R77) -/

theorem reg_of_ne_seven {f : RegField} (h : f ≠ 7) : reg f = some (regm f) := if_neg h

theorem reg_seven : reg 7 = none := rfl

theorem regm_eq_flags_iff (f : RegField) : regm f = .flags ↔ f = 7 := by
  revert f; decide

theorem regm_ne_flags {f : RegField} (h : f ≠ 7) : regm f ≠ .flags := fun e => h ((regm_eq_flags_iff f).mp e)

theorem regm_injective : ∀ f g : RegField, regm f = regm g → f = g := by decide

theorem withReg_valid {f : RegField} {p : FieldPos} {s : State} {k : RegId → Result} (h : f ≠ 7) :
    withReg f p s k = k (regm f) := by
  simp only [withReg, reg_of_ne_seven h]

theorem withReg_seven {p : FieldPos} {s : State} {k : RegId → Result} :
    withReg 7 p s k = .next (s.raise (.registerFault 7 p)) := rfl

theorem withRegsA_valid {f g h : RegField} {s : State} {k : RegId → RegId → RegId → State} (hf : f ≠ 7) (hg : g ≠ 7)
    (hh : h ≠ 7) : withRegsA f g h s k = .next (k (regm f) (regm g) (regm h)) := by
  rw [withRegsA, withReg_valid hf, withReg_valid hg, withReg_valid hh]

theorem withRegBD_valid {f : RegField} {s : State} {k : RegId → Result} (hf : f ≠ 7) :
    withRegBD f s k = k (regm f) := withReg_valid hf

theorem withRegsC_valid {f g : RegField} {s : State} {k : RegId → RegId → State} (hf : f ≠ 7) (hg : g ≠ 7) :
    withRegsC f g s k = .next (k (regm f) (regm g)) := by
  rw [withRegsC, withReg_valid hf, withReg_valid hg]

/-- Format A: the first field of 111, in field order, raises RegisterFault; with none, the effect happens. -/
theorem withRegsA_cases (f g h : RegField) (s : State) (k : RegId → RegId → RegId → State) :
    (∃ p, (7, p) ∈ [(f, FieldPos.bits8to6), (g, .bits5to3), (h, .bits2to0)] ∧
        withRegsA f g h s k = .next (s.raise (.registerFault 7 p))) ∨
      (f ≠ 7 ∧ g ≠ 7 ∧ h ≠ 7 ∧ withRegsA f g h s k = .next (k (regm f) (regm g) (regm h))) := by
  by_cases hf : f = 7
  · subst hf; exact .inl ⟨.bits8to6, by simp, rfl⟩
  by_cases hg : g = 7
  · subst hg; exact .inl ⟨.bits5to3, by simp, by rw [withRegsA, withReg_valid hf, withReg_seven]⟩
  by_cases hh : h = 7
  · subst hh; exact .inl ⟨.bits2to0, by simp, by rw [withRegsA, withReg_valid hf, withReg_valid hg, withReg_seven]⟩
  exact .inr ⟨hf, hg, hh, withRegsA_valid hf hg hh⟩

/-- Formats B and D: a field of 111 raises RegisterFault; otherwise the effect happens. -/
theorem withRegBD_cases (f : RegField) (s : State) (k : RegId → Result) :
    (f = 7 ∧ withRegBD f s k = .next (s.raise (.registerFault 7 .bits9to7))) ∨
      (f ≠ 7 ∧ withRegBD f s k = k (regm f)) := by
  by_cases hf : f = 7
  · subst hf; exact .inl ⟨rfl, rfl⟩
  · exact .inr ⟨hf, withRegBD_valid hf⟩

/-- Format C: the first field of 111, in field order, raises RegisterFault; with none, the effect happens. -/
theorem withRegsC_cases (f g : RegField) (s : State) (k : RegId → RegId → State) :
    (∃ p, (7, p) ∈ [(f, FieldPos.bits5to3), (g, .bits2to0)] ∧
        withRegsC f g s k = .next (s.raise (.registerFault 7 p))) ∨
      (f ≠ 7 ∧ g ≠ 7 ∧ withRegsC f g s k = .next (k (regm f) (regm g))) := by
  by_cases hf : f = 7
  · subst hf; exact .inl ⟨.bits5to3, by simp, rfl⟩
  by_cases hg : g = 7
  · subst hg; exact .inl ⟨.bits2to0, by simp, by rw [withRegsC, withReg_valid hf, withReg_seven]⟩
  exact .inr ⟨hf, hg, withRegsC_valid hf hg⟩

/-! ### Faults -/

/-- Taking a fault is entering the faulted state as the rules write it out (60_exceptions.md R221, R222). -/
theorem raise_eq_faultedWith (s : State) (k : FaultKind) : s.raise k = s.faultedWith k := rfl

/-- A state that runs has a step; one that does not has none (00_scope.md R10). -/
theorem stopped_eq_none_iff (s : State) : s.stopped = none ↔ s.Running := by
  unfold State.stopped State.Running
  cases hf : s.fault <;> cases hh : s.halted <;> simp

/-! ### Ends of instructions -/

theorem writeBack_eq (s : State) (d : RegId) (v : Word) :
    s.writeBack d v = { s with regs := (s.regs.set .flags 0).set d v, pc := s.pc + 1 } := rfl

theorem writeBack_getReg (s : State) (d q : RegId) (v : Word) :
    (s.writeBack d v).getReg q = if q = d then v else if q = .flags then 0 else s.getReg q := by
  simp only [State.writeBack, State.advance_getReg, State.getReg_setReg, State.getReg_resetFlags]

/-- The overflow end keeps every flag but OV (41_arithmetic.md R100 to R102, decision D4). -/
theorem arithEnd_overflow_getReg (s : State) (d q : RegId) :
    (s.arithEnd false d none).getReg q =
      if q = d then 0 else if q = .flags then s.getReg .flags ||| maskOV else s.getReg q := by
  change ((s.setFlag maskOV).setReg d 0).getReg q = _
  rw [State.getReg_setReg, State.getReg_setFlag]

/-- Whatever the result, ADD, SUB and MUL end by changing registers and advancing. -/
theorem arithEnd_shape (s : State) (c : Bool) (d : RegId) (r : Option Word) :
    ∃ rf, s.arithEnd c d r = { s with regs := rf, pc := s.pc + 1 } := by
  cases r <;> cases c <;> exact ⟨_, rfl⟩

theorem divEnd_shape (s : State) (r : Option (Word × Word)) :
    ∃ rf, s.divEnd r = { s with regs := rf, pc := s.pc + 1 } := by
  cases r <;> exact ⟨_, rfl⟩

theorem jumpIf_eq (s : State) (m : Word) (n : Addr) :
    s.jumpIf m n = { s with regs := s.regs.set .flags 0,
                            pc := if getFlag s.regs.flags m then jumpTarget n else s.pc + 1 } := by
  unfold State.jumpIf
  cases getFlag s.regs.flags m <;> rfl

theorem jumpTarget_toNat (n : Addr) : (jumpTarget n).toNat = n.toNat := by
  have := n.isLt
  simp only [jumpTarget, BitVec.toNat_setWidth]
  omega

/-! ### Flags by bit -/

theorem getFlag_bit (f : Word) :
    getFlag f maskLT = f.getLsbD 2 ∧ getFlag f maskGT = f.getLsbD 1 ∧ getFlag f maskEQ = f.getLsbD 0 := by
  have key : ∀ k : Nat, k < 16 → (f &&& BitVec.twoPow 16 k != 0) = f.getLsbD k := by
    intro k hk
    rw [BitVec.and_twoPow]
    by_cases h : f.getLsbD k
    · have h2 : BitVec.twoPow 16 k ≠ 0 := by
        intro e
        have := congrArg (fun b => b.getLsbD k) e
        simp [hk] at this
      simpa [h] using h2
    · simp [h]
  exact ⟨key 2 (by decide), key 1 (by decide), key 0 (by decide)⟩

/-! ### Placing an instruction -/

/-- The next fetch reads the placed word. -/
theorem withFetchWord_fetch (s : State) (nbits w : Nat) (h : s.pc.toNat < 256) :
    (s.withFetchWord nbits w).fetch = some (BitVec.ofNat 16 w) := by
  simp only [State.withFetchWord, memWrite_inside h, State.fetch, memRead_inside h, Memory.read_write, if_pos]

end Sys2Proof.Machine
end

