-- ==== Sys2Proof/Laws/Exec.lean ====
section
/-! SUPPORT. What one instruction, and one step, can do, said once. -/

namespace Sys2Proof.Machine

/-- Why an executing instruction raises a fault (30_encoding.md R83): a register field of 111, a rotate count above 16,
or an effective address outside memory. -/
inductive FaultCause (i : Instr) (s : State) : FaultKind → Prop where
  | field (p : FieldPos) (h : (7, p) ∈ i.regFields) : FaultCause i s (.registerFault 7 p)
  | count (n : Imm) (h : i.rotateCount = some n) (hn : 16 < n.toNat) : FaultCause i s (.shiftCountFault n)
  | load (d : RegField) (n : Addr) (h : i = .ld d n) (ha : 256 ≤ n.toNat + s.ic) :
      FaultCause i s (.memoryFault (n.toNat + s.ic))
  | store (d : RegField) (n : Addr) (h : i = .st d n) (ha : 256 ≤ n.toNat + s.ic) :
      FaultCause i s (.memoryFault (n.toNat + s.ic))

/-- Everything that executing an instruction can do: raise a fault with a cause, halt, store one word, or change
registers and the pc. -/
inductive Effect (i : Instr) (s : State) : State → Prop where
  | fault (k : FaultKind) (h : FaultCause i s k) : Effect i s (s.raise k)
  | halt (h : i = .hlt) : Effect i s { s with halted := true }
  | store (d : RegField) (n : Addr) (h : i = .st d n) (hd : d ≠ 7) (ha : n.toNat + s.ic < 256) :
      Effect i s { s with regs := s.regs.set .flags 0, mem := s.mem.write (n.toNat + s.ic) (s.x d), pc := s.pc + 1 }
  | regs (rf : RegFile) (h : i.takenJump s.regs.flags = none) (hh : i ≠ .hlt) :
      Effect i s { s with regs := rf, pc := s.pc + 1 }
  | jump (n : Addr) (h : i.takenJump s.regs.flags = some n) :
      Effect i s { s with regs := s.regs.set .flags 0, pc := jumpTarget n }

theorem effect_regsA {i : Instr} {f g h : RegField} {s : State} {k : RegId → RegId → RegId → State}
    (hf : i.regFields = [(f, .bits8to6), (g, .bits5to3), (h, .bits2to0)])
    (hk : ∀ x y z, ∃ rf, k x y z = { s with regs := rf, pc := s.pc + 1 })
    (hj : i.takenJump s.regs.flags = none) (hh : i ≠ .hlt) :
    ∃ t, withRegsA f g h s k = .next t ∧ Effect i s t := by
  rcases withRegsA_cases f g h s k with ⟨p, hp, e⟩ | ⟨-, -, -, e⟩
  · exact ⟨_, e, .fault _ (.field p (hf ▸ hp))⟩
  · obtain ⟨rf, hrf⟩ := hk (regm f) (regm g) (regm h)
    exact ⟨_, e, hrf ▸ .regs rf hj hh⟩

theorem effect_regsC {i : Instr} {f g : RegField} {s : State} {k : RegId → RegId → State}
    (hf : i.regFields = [(f, .bits5to3), (g, .bits2to0)])
    (hk : ∀ x y, ∃ rf, k x y = { s with regs := rf, pc := s.pc + 1 })
    (hj : i.takenJump s.regs.flags = none) (hh : i ≠ .hlt) :
    ∃ t, withRegsC f g s k = .next t ∧ Effect i s t := by
  rcases withRegsC_cases f g s k with ⟨p, hp, e⟩ | ⟨-, -, e⟩
  · exact ⟨_, e, .fault _ (.field p (hf ▸ hp))⟩
  · obtain ⟨rf, hrf⟩ := hk (regm f) (regm g)
    exact ⟨_, e, hrf ▸ .regs rf hj hh⟩

theorem effect_regBD {i : Instr} {f : RegField} {s : State} {k : RegId → Result}
    (hf : i.regFields = [(f, .bits9to7)])
    (hk : f ≠ 7 → ∃ t, k (regm f) = .next t ∧ Effect i s t) :
    ∃ t, withRegBD f s k = .next t ∧ Effect i s t := by
  rcases withRegBD_cases f s k with ⟨rfl, e⟩ | ⟨h7, e⟩
  · exact ⟨_, e, .fault _ (.field _ (by simp [hf]))⟩
  · obtain ⟨t, ht, he⟩ := hk h7
    exact ⟨t, e.trans ht, he⟩

theorem effect_rotate {i : Instr} {n : Imm} {s : State} {d : RegId} {v : Word}
    (hn : i.rotateCount = some n) (hj : i.takenJump s.regs.flags = none) (hh : i ≠ .hlt) :
    ∃ t, withRotateCount n s (s.writeBack d v) = .next t ∧ Effect i s t := by
  unfold withRotateCount
  split
  · exact ⟨_, rfl, .fault _ (.count n hn ‹_›)⟩
  · exact ⟨_, rfl, .regs _ hj hh⟩

theorem effect_jumpIf {i : Instr} {s : State} {m : Word} {n : Addr} (hh : i ≠ .hlt)
    (hj : i.takenJump s.regs.flags = if getFlag s.regs.flags m then some n else none) :
    Effect i s (s.jumpIf m n) := by
  rw [jumpIf_eq]
  cases hm : getFlag s.regs.flags m
  · exact .regs _ (by rw [hj, hm]; rfl) hh
  · exact .jump n (by rw [hj, hm]; rfl)

/-- Every instruction answers a next state, and that state is one of `Effect`'s. -/
theorem exec_effect (i : Instr) (s : State) : ∃ t, exec i s = .next t ∧ Effect i s t := by
  obtain ⟨hLT, hGT, hEQ⟩ := getFlag_bit s.regs.flags
  have plain : ∀ {i : Instr} {rf : RegFile}, i.takenJump s.regs.flags = none → i ≠ .hlt →
      ∃ t, (Host.Outcome.next ({ s with regs := rf, pc := s.pc + 1 } : State) : Result) = .next t ∧ Effect i s t :=
    fun hj hh => ⟨_, rfl, .regs _ hj hh⟩
  cases i with
  | add d a b => exact effect_regsA rfl (fun _ _ _ => arithEnd_shape _ _ _ _) rfl (by simp)
  | sub d a b => exact effect_regsA rfl (fun _ _ _ => arithEnd_shape _ _ _ _) rfl (by simp)
  | mul d a b => exact effect_regsA rfl (fun _ _ _ => arithEnd_shape _ _ _ _) rfl (by simp)
  | xor d a b => exact effect_regsA rfl (fun _ _ _ => ⟨_, rfl⟩) rfl (by simp)
  | or d a b => exact effect_regsA rfl (fun _ _ _ => ⟨_, rfl⟩) rfl (by simp)
  | and d a b => exact effect_regsA rfl (fun _ _ _ => ⟨_, rfl⟩) rfl (by simp)
  | div a b => exact effect_regsC rfl (fun _ _ => divEnd_shape _ _) rfl (by simp)
  | not d a => exact effect_regsC rfl (fun _ _ => ⟨_, rfl⟩) rfl (by simp)
  | cmp a b => exact effect_regsC rfl (fun _ _ => ⟨_, rfl⟩) rfl (by simp)
  | movi d n => exact effect_regBD rfl fun _ => plain rfl (by simp)
  | rs d n => exact effect_regBD rfl fun _ => plain rfl (by simp)
  | ls d n => exact effect_regBD rfl fun _ => plain rfl (by simp)
  | setb d n => exact effect_regBD rfl fun _ => plain rfl (by simp)
  | clrb d n => exact effect_regBD rfl fun _ => plain rfl (by simp)
  | tglb d n => exact effect_regBD rfl fun _ => plain rfl (by simp)
  | rol d n => exact effect_regBD rfl fun _ => effect_rotate rfl rfl (by simp)
  | ror d n => exact effect_regBD rfl fun _ => effect_rotate rfl rfl (by simp)
  | ld d n =>
    refine effect_regBD rfl fun _ => ?_
    by_cases ha : effectiveAddress s.ic n < 256
    · rw [memRead_inside ha]; exact plain rfl (by simp)
    · rw [memRead_outside (Nat.not_lt.mp ha)]
      exact ⟨_, rfl, .fault _ (.load d n rfl (Nat.not_lt.mp ha))⟩
  | st d n =>
    refine effect_regBD rfl fun h7 => ?_
    by_cases ha : effectiveAddress s.ic n < 256
    · rw [memWrite_inside ha]; exact ⟨_, rfl, .store d n rfl h7 ha⟩
    · rw [memWrite_outside (Nat.not_lt.mp ha)]
      exact ⟨_, rfl, .fault _ (.store d n rfl (Nat.not_lt.mp ha))⟩
  | movr d a => exact plain rfl (by simp)
  | fadd d a b => exact plain rfl (by simp)
  | fsub d a b => exact plain rfl (by simp)
  | movf d n => exact plain rfl (by simp)
  | nop24 => exact plain rfl (by simp)
  | nop25 => exact plain rfl (by simp)
  | nop27 => exact plain rfl (by simp)
  | nop30 => exact plain rfl (by simp)
  | hlt => exact ⟨_, rfl, .halt rfl⟩
  | jmp n => exact ⟨_, rfl, .jump n rfl⟩
  | jlt n => exact ⟨_, rfl, effect_jumpIf (by simp) (by rw [hLT]; rfl)⟩
  | jgt n => exact ⟨_, rfl, effect_jumpIf (by simp) (by rw [hGT]; rfl)⟩
  | je n => exact ⟨_, rfl, effect_jumpIf (by simp) (by rw [hEQ]; rfl)⟩

/-- What a given next state of an instruction can be. -/
theorem exec_cases {i : Instr} {s t : State} (h : exec i s = .next t) : Effect i s t := by
  obtain ⟨t', ht', he⟩ := exec_effect i s
  rw [h] at ht'
  cases ht'
  exact he

/-- What a step from a running state is (10_state.md R33). -/
theorem step_running {s : State} (h : s.Running) :
    step s = match s.fetch with
      | none => .next (s.raise (.memoryFault s.pc.toNat))
      | some w => exec (decode w) s := by
  cases hf : s.fetch <;> simp [step, (stopped_eq_none_iff s).mpr h, hf]

/-- What a step that answers a next state did: it began in a running state, and either the fetch faulted or the decoded
instruction executed. -/
theorem step_cases {s t : State} (h : step s = .next t) :
    s.Running ∧
      ((256 ≤ s.pc.toNat ∧ t = s.raise (.memoryFault s.pc.toNat)) ∨
        (s.pc.toNat < 256 ∧ exec (decode (s.mem.read s.pc.toNat)) s = .next t)) := by
  have hrun : s.Running := by
    rw [← stopped_eq_none_iff]
    unfold step at h
    cases hs : s.stopped with
    | none => rfl
    | some f => rw [hs] at h; cases h
  refine ⟨hrun, ?_⟩
  rw [step_running hrun] at h
  by_cases hp : s.pc.toNat < 256
  · rw [State.fetch, memRead_inside hp] at h
    exact .inr ⟨hp, h⟩
  · rw [State.fetch, memRead_outside (Nat.not_lt.mp hp)] at h
    exact .inl ⟨Nat.not_lt.mp hp, (Host.Outcome.next.inj h).symm⟩

/-- A run of `k + 1` steps is a step and a run of `k`. -/
theorem core_run_succ (k : Nat) (s : State) : Sys2Proof.core.run (k + 1) s =
    match step s with
    | .next t => Sys2Proof.core.run k t
    | .fault r => .fault r
    | .refused r => .refused r := by
  show Host.Core.run _ _ _ = _
  simp only [Host.Core.run, Sys2Proof.core]
  cases step s <;> rfl

end Sys2Proof.Machine
end

