-- ==== Sys2Proof/Laws/Frames.lean ====
section
/-! SUPPORT. Frames and values of the shared ends of instructions, in the terms of Sys2Proof/Safety.lean. -/

namespace Sys2Proof.Machine

theorem x_eq (s : State) (f : RegField) : s.x f = s.getReg (regm f) := rfl

theorem flags_ne_regm {d : RegField} (h : d ≠ 7) : RegId.flags ≠ regm d := (regm_ne_flags h).symm

/-! ### RegisterFault on a field of 111 -/

theorem registerFaults_A {i : Instr} {f g h : RegField} {s : State} {k : RegId → RegId → RegId → State}
    (e : exec i s = withRegsA f g h s k) (hb : f = 7 ∨ g = 7 ∨ h = 7) : RegisterFaults i s := by
  rcases withRegsA_cases f g h s k with ⟨p, -, hp⟩ | ⟨hf, hg, hh, -⟩
  · exact ⟨p, e.trans hp⟩
  · rcases hb with e7 | e7 | e7 <;> contradiction

theorem registerFaults_C {i : Instr} {f g : RegField} {s : State} {k : RegId → RegId → State}
    (e : exec i s = withRegsC f g s k) (hb : f = 7 ∨ g = 7) : RegisterFaults i s := by
  rcases withRegsC_cases f g s k with ⟨p, -, hp⟩ | ⟨hf, hg, -⟩
  · exact ⟨p, e.trans hp⟩
  · rcases hb with e7 | e7 <;> contradiction

theorem registerFaults_BD {i : Instr} {f : RegField} {s : State} {k : RegId → Result}
    (e : exec i s = withRegBD f s k) (hb : f = 7) : RegisterFaults i s := by
  subst hb; exact ⟨_, e⟩

/-! ### `writeBack` -/

theorem writeBack_frame (s : State) (d : RegId) (v : Word) : Frame [d, .flags] s (s.writeBack d v) where
  regs r hr := by
    simp only [List.mem_cons, List.not_mem_nil, or_false, not_or] at hr
    rw [writeBack_getReg, if_neg hr.1, if_neg hr.2]
  mem _ := rfl
  halted := rfl
  fault := rfl
  ic := rfl

theorem writeBack_x (s : State) (d : RegField) (v : Word) : (s.writeBack (regm d) v).x d = v := by
  rw [x_eq, writeBack_getReg, if_pos rfl]

theorem writeBack_flags {d : RegField} (s : State) (v : Word) (h : d ≠ 7) :
    (s.writeBack (regm d) v).regs.flags = 0 := by
  rw [← State.getReg_flags, writeBack_getReg, if_neg (flags_ne_regm h), if_pos rfl]

/-! ### The overflow end -/

theorem overflow_frame (s : State) (d : RegId) : Frame [d, .flags] s (s.arithEnd false d none) where
  regs r hr := by
    simp only [List.mem_cons, List.not_mem_nil, or_false, not_or] at hr
    rw [arithEnd_overflow_getReg, if_neg hr.1, if_neg hr.2]
  mem _ := rfl
  halted := rfl
  fault := rfl
  ic := rfl

theorem overflow_x (s : State) (d : RegField) : (s.arithEnd false (regm d) none).x d = 0 := by
  rw [x_eq, arithEnd_overflow_getReg, if_pos rfl]

theorem overflow_flags {d : RegField} (s : State) (h : d ≠ 7) :
    (s.arithEnd false (regm d) none).regs.flags = s.regs.flags ||| 0b1000 := by
  rw [← State.getReg_flags, arithEnd_overflow_getReg, if_neg (flags_ne_regm h), if_pos rfl]
  rfl

/-! ### Changing FLAGS alone -/

theorem flags_frame (s : State) (v : Word) (p : Pc) :
    Frame [.flags] s { s with regs := s.regs.set .flags v, pc := p } where
  regs r hr := by
    simp only [List.mem_cons, List.not_mem_nil, or_false] at hr
    exact RegFile.get_set_ne _ _ hr
  mem _ := rfl
  halted := rfl
  fault := rfl
  ic := rfl

end Sys2Proof.Machine
end

