-- ==== Sys2Proof/Laws/PerInstr.lean ====
section
/-! SUPPORT. Per-instruction families: a statement about each instruction as syntax, one lemma per constructor. -/

namespace Sys2Proof.Laws.OpcodeField

/-- Bits 15:11 of an instruction's word are its row's opcode (30_encoding.md R70, R80), whatever its operands. -/
def Statement (i : Instr) : Prop := (encode i).extractLsb' 11 5 = i.opcode

theorem of_encode (i : Instr) : Statement i := by
  unfold Statement encode
  ext j hj
  simp only [BitVec.getElem_extractLsb', BitVec.getLsbD_append]
  rw [if_neg (by omega), Nat.add_sub_cancel_left, BitVec.getLsbD_eq_getElem]

theorem add (reg1 reg2 reg3 : RegField) : Statement (.add reg1 reg2 reg3) := of_encode _
theorem sub (reg1 reg2 reg3 : RegField) : Statement (.sub reg1 reg2 reg3) := of_encode _
theorem movi (reg1 : RegField) (imm : Imm) : Statement (.movi reg1 imm) := of_encode _
theorem movr (reg1 reg2 : RegField) : Statement (.movr reg1 reg2) := of_encode _
theorem ld (reg1 : RegField) (address : Addr) : Statement (.ld reg1 address) := of_encode _
theorem st (reg1 : RegField) (address : Addr) : Statement (.st reg1 address) := of_encode _
theorem mul (reg1 reg2 reg3 : RegField) : Statement (.mul reg1 reg2 reg3) := of_encode _
theorem div (reg1 reg2 : RegField) : Statement (.div reg1 reg2) := of_encode _
theorem rs (reg1 : RegField) (imm : Imm) : Statement (.rs reg1 imm) := of_encode _
theorem ls (reg1 : RegField) (imm : Imm) : Statement (.ls reg1 imm) := of_encode _
theorem xor (reg1 reg2 reg3 : RegField) : Statement (.xor reg1 reg2 reg3) := of_encode _
theorem or (reg1 reg2 reg3 : RegField) : Statement (.or reg1 reg2 reg3) := of_encode _
theorem and (reg1 reg2 reg3 : RegField) : Statement (.and reg1 reg2 reg3) := of_encode _
theorem not (reg1 reg2 : RegField) : Statement (.not reg1 reg2) := of_encode _
theorem cmp (reg1 reg2 : RegField) : Statement (.cmp reg1 reg2) := of_encode _
theorem jmp (address : Addr) : Statement (.jmp address) := of_encode _
theorem fadd (reg1 reg2 reg3 : RegField) : Statement (.fadd reg1 reg2 reg3) := of_encode _
theorem fsub (reg1 reg2 reg3 : RegField) : Statement (.fsub reg1 reg2 reg3) := of_encode _
theorem movf (reg1 : RegField) (imm : Imm) : Statement (.movf reg1 imm) := of_encode _
theorem setb (reg1 : RegField) (imm : Imm) : Statement (.setb reg1 imm) := of_encode _
theorem clrb (reg1 : RegField) (imm : Imm) : Statement (.clrb reg1 imm) := of_encode _
theorem tglb (reg1 : RegField) (imm : Imm) : Statement (.tglb reg1 imm) := of_encode _
theorem rol (reg1 : RegField) (imm : Imm) : Statement (.rol reg1 imm) := of_encode _
theorem ror (reg1 : RegField) (imm : Imm) : Statement (.ror reg1 imm) := of_encode _
theorem nop24 : Statement .nop24 := of_encode _
theorem nop25 : Statement .nop25 := of_encode _
theorem hlt : Statement .hlt := of_encode _
theorem nop27 : Statement .nop27 := of_encode _
theorem jlt (address : Addr) : Statement (.jlt address) := of_encode _
theorem jgt (address : Addr) : Statement (.jgt address) := of_encode _
theorem nop30 : Statement .nop30 := of_encode _
theorem je (address : Addr) : Statement (.je address) := of_encode _

end Sys2Proof.Laws.OpcodeField
end

