-- ==== Sys2Proof/Tests/Slice0.lean ====
section
/-! SUPPORT. Tests of the model's own. Words and results are those of spec/95_test_vectors.md (parts 2 and 3) and of the
examples in the rules; a result the spec does not tabulate is worked by hand from the named rule. At the end, a witness for
the hypotheses of every obligation that has some. -/

namespace Sys2Proof.Tests

open Sys2Proof.Machine

/-! ### Decoding: one word for each constructor, written out from the formats of 30_encoding.md R71 to R75 -/

theorem test_decode_add : decode 0b00000_00_010_000_001 = .add 2 0 1 := by decide
theorem test_decode_sub : decode 0b00001_00_011_100_101 = .sub 3 4 5 := by decide
theorem test_decode_movi : decode 0b00010_0_110_1111111 = .movi 6 127 := by decide
theorem test_decode_movr : decode 0b00011_00000_100_111 = .movr 4 7 := by decide
theorem test_decode_ld : decode 0b00100_0_011_0000100 = .ld 3 4 := by decide
theorem test_decode_st : decode 0b00101_0_010_1111111 = .st 2 127 := by decide
theorem test_decode_mul : decode 0b00110_00_110_001_010 = .mul 6 1 2 := by decide
theorem test_decode_div : decode 0b00111_00000_010_011 = .div 2 3 := by decide
theorem test_decode_rs : decode 0b01000_0_001_0010000 = .rs 1 16 := by decide
theorem test_decode_ls : decode 0b01001_0_001_0000100 = .ls 1 4 := by decide
theorem test_decode_xor : decode 0b01010_00_001_010_011 = .xor 1 2 3 := by decide
theorem test_decode_or : decode 0b01011_00_001_010_011 = .or 1 2 3 := by decide
theorem test_decode_and : decode 0b01100_00_001_010_011 = .and 1 2 3 := by decide
theorem test_decode_not : decode 0b01101_00000_001_010 = .not 1 2 := by decide
theorem test_decode_cmp : decode 0b01110_00000_000_001 = .cmp 0 1 := by decide
theorem test_decode_jmp : decode 0b01111_0000_0000101 = .jmp 5 := by decide
theorem test_decode_fadd : decode 0b10000_00_001_010_011 = .fadd 1 2 3 := by decide
theorem test_decode_fsub : decode 0b10001_00_111_111_111 = .fsub 7 7 7 := by decide
theorem test_decode_movf : decode 0b10010_0_001_0000011 = .movf 1 3 := by decide
theorem test_decode_setb : decode 0b10011_0_001_0001111 = .setb 1 15 := by decide
theorem test_decode_clrb : decode 0b10100_0_001_0000000 = .clrb 1 0 := by decide
theorem test_decode_tglb : decode 0b10101_0_001_0000011 = .tglb 1 3 := by decide
theorem test_decode_rol : decode 0b10110_0_001_0000100 = .rol 1 4 := by decide
theorem test_decode_ror : decode 0b10111_0_001_1111111 = .ror 1 127 := by decide
theorem test_decode_nop24 : decode 0b11000_00000000000 = .nop24 := by decide
theorem test_decode_nop25 : decode 0b11001_00000000000 = .nop25 := by decide
theorem test_decode_hlt : decode 0b11010_00000000000 = .hlt := by decide
theorem test_decode_nop27 : decode 0b11011_00000000000 = .nop27 := by decide
theorem test_decode_jlt : decode 0b11100_0000_0000101 = .jlt 5 := by decide
theorem test_decode_jgt : decode 0b11101_0000_0000101 = .jgt 5 := by decide
theorem test_decode_nop30 : decode 0b11110_00000000000 = .nop30 := by decide
theorem test_decode_je : decode 0b11111_0000_0000101 = .je 5 := by decide

/-- Unused bits set (95_test_vectors.md: 0x1605 is MOVI R4, #5; 44_compare_jump.md R164: 0xFFFF is JE 127). -/
theorem test_decode_unused_bits : decode 0x1605 = .movi 4 5 ∧ decode 0xFFFF = .je 127 := by decide

theorem test_encode_examples :
    encode (.add 2 0 1) = 0x0081 ∧ encode (.div 2 3) = 0x3813 ∧ encode (.movr 7 5) = 0x183D ∧
      encode (.st 2 4) = 0x2904 ∧ encode (.jlt 5) = 0xE005 ∧ encode .hlt = 0xD000 := by decide

theorem test_table_word :
    decodeTableWord 16 0x0081 = some (.add 2 0 1) ∧ decodeTableWord 16 0x10000 = none := by decide

/-! ### WellFormed: each check refuses an ill-formed instruction -/

theorem test_wf_accepts :
    (Instr.add 0 3 6).wellFormed = true ∧ (Instr.movr 7 7).wellFormed = true ∧ (Instr.rol 0 16).wellFormed = true ∧
      (Instr.fadd 7 7 7).wellFormed = true := by decide
theorem test_wf_formatA_reg1 : (Instr.add 7 0 0).wellFormed = false := by decide
theorem test_wf_formatA_reg2 : (Instr.xor 0 7 0).wellFormed = false := by decide
theorem test_wf_formatA_reg3 : (Instr.mul 0 0 7).wellFormed = false := by decide
theorem test_wf_formatB_reg1 : (Instr.movi 7 0).wellFormed = false := by decide
theorem test_wf_formatC_reg1 : (Instr.div 7 0).wellFormed = false := by decide
theorem test_wf_formatC_reg2 : (Instr.cmp 0 7).wellFormed = false := by decide
theorem test_wf_formatD_reg1 : (Instr.st 7 0).wellFormed = false := by decide
theorem test_wf_rotate_count : (Instr.rol 0 17).wellFormed = false ∧ (Instr.ror 0 127).wellFormed = false := by decide

/-! ### Single steps -/

/-- The launch state of a four-word program of zeros, at pc 0. -/
def start : State := { State.reset with ic := 4 }

/-- `start` with some registers set. -/
def withRegs (rs : List (RegId × Word)) : State := rs.foldl (fun s r => s.setReg r.1 r.2) start

/-- The state after the step that fetches and runs a word. -/
def after (w : Nat) (s : State) : Option State :=
  match step (s.withFetchWord 16 w) with
  | .next t => some t
  | .fault _ => none
  | .refused _ => none

/-- A register, FLAGS and the pc after the step. -/
def seen (w : Nat) (s : State) (r : RegId) : Option (Word × Word × Pc) :=
  (after w s).map fun t => (t.getReg r, t.regs.flags, t.pc)

/-- The fault record after the step, and whether all else stayed. -/
def faultSeen (w : Nat) (s : State) : Option (Option FaultRecord × Bool) :=
  (after w s).map fun t => (t.fault, { t with fault := none } == s.withFetchWord 16 w)

theorem test_add_largest : seen 0x0081 (withRegs [(.r0, 0xFFFF), (.r1, 0), (.flags, 0b0101)]) .r2 = some (0xFFFF, 0, 1) := by decide
theorem test_add_overflow_keeps_lt : seen 0x0081 (withRegs [(.r0, 0xFFFF), (.r1, 1), (.r2, 0x1234), (.flags, 0b0100)]) .r2 = some (0, 0b1100, 1) := by decide
theorem test_sub_plain : seen 0x08E5 (withRegs [(.r4, 10), (.r5, 7), (.flags, 0b0001)]) .r3 = some (3, 0, 1) := by decide
theorem test_sub_underflow_keeps_eq : seen 0x08E5 (withRegs [(.r4, 0), (.r5, 1), (.r3, 9), (.flags, 0b0001)]) .r3 = some (0, 0b1001, 1) := by decide
theorem test_mul_largest : seen 0x318A (withRegs [(.r1, 0x00FF), (.r2, 0x0101)]) .r6 = some (0xFFFF, 0, 1) := by decide
theorem test_mul_overflow : seen 0x318A (withRegs [(.r1, 0x0100), (.r2, 0x0100), (.r6, 0x1111)]) .r6 = some (0, 0b1000, 1) := by decide
theorem test_div_operands_are_destinations :
    (after 0x3801 (withRegs [(.r0, 7), (.r1, 2)])).map (fun t => (t.regs.r0, t.regs.r1, t.regs.flags)) = some (3, 1, 0) := by
  decide
theorem test_div_by_zero :
    (after 0x3813 (withRegs [(.r0, 9), (.r1, 9), (.r2, 17), (.flags, 0b0010)])).map
      (fun t => (t.regs.r0, t.regs.r1, t.regs.flags)) = some (0, 0, 0b1010) := by decide
theorem test_movi_clears_flags : seen 0x1005 (withRegs [(.r0, 0xFFFF), (.flags, 0b1000)]) .r0 = some (5, 0, 1) := by decide
theorem test_movi_largest : seen 0x137F start .r6 = some (127, 0, 1) := by decide
theorem test_movr_from_flags : seen 0x1827 (withRegs [(.flags, 0b1010)]) .r4 = some (0b1010, 0, 1) := by decide
theorem test_movr_to_flags : seen 0x183D (withRegs [(.r5, 0xABCD)]) .r5 = some (0xABCD, 0xABCD, 1) := by decide
theorem test_ld_reads_biased : seen 0x2184 { start with mem := start.mem.write 8 0x00FF } .r3 = some (0x00FF, 0, 1) := by
  decide
theorem test_ld_past_memory :
    faultSeen 0x21FF { start with ic := 129 } = some (some ⟨.memoryFault 256, 0, some 0x21FF⟩, true) := by decide
theorem test_st_writes_biased :
    (after 0x2904 (withRegs [(.r2, 8)])).map (fun t => (t.mem.read 8, t.mem.read 4, t.regs.flags)) = some (8, 0, 0) := by
  decide
theorem test_st_field_before_address :
    faultSeen 0x2B80 { start with ic := 300 } = some (some ⟨.registerFault 7 .bits9to7, 0, some 0x2B80⟩, true) := by decide
theorem test_rs_plain : seen 0x4084 (withRegs [(.r1, 0xABCD)]) .r1 = some (0x0ABC, 0, 1) := by decide
theorem test_rs_width : seen 0x4090 (withRegs [(.r1, 0xFFFF)]) .r1 = some (0, 0, 1) := by decide
theorem test_ls_plain : seen 0x4884 (withRegs [(.r1, 0xABCD)]) .r1 = some (0xBCD0, 0, 1) := by decide
theorem test_ls_width : seen 0x4890 (withRegs [(.r1, 0xFFFF)]) .r1 = some (0, 0, 1) := by decide
theorem test_xor_plain : seen 0x5053 (withRegs [(.r2, 0x0F0F), (.r3, 0x00FF)]) .r1 = some (0x0FF0, 0, 1) := by decide
theorem test_or_plain : seen 0x5853 (withRegs [(.r2, 0x0F0F), (.r3, 0x00FF)]) .r1 = some (0x0FFF, 0, 1) := by decide
theorem test_and_clears_ov : seen 0x6053 (withRegs [(.r2, 0x0F0F), (.r3, 0x00FF), (.flags, 0b1000)]) .r1 = some (0x000F, 0, 1) := by decide
theorem test_not_plain : seen 0x680A (withRegs [(.r2, 0x00FF)]) .r1 = some (0xFF00, 0, 1) := by decide
theorem test_not_in_place : seen 0x6809 (withRegs [(.r1, 0)]) .r1 = some (0xFFFF, 0, 1) := by decide
theorem test_cmp_stale_eq : seen 0x7001 (withRegs [(.r0, 5), (.r1, 3), (.flags, 0b0001)]) .flags = some (0b0011, 0b0011, 1) := by decide
theorem test_cmp_unsigned : seen 0x7001 (withRegs [(.r0, 0xFFFF), (.r1, 1)]) .flags = some (0b0010, 0b0010, 1) := by decide
theorem test_jmp : seen 0x7805 { withRegs [(.flags, 0b0111)] with pc := 2 } .flags = some (0, 0, 5) := by decide
theorem test_jlt_taken_stale : seen 0xE005 { withRegs [(.flags, 0b0110)] with pc := 2 } .flags = some (0, 0, 5) := by decide
theorem test_jlt_not_taken : seen 0xE005 { withRegs [(.flags, 0b0010)] with pc := 2 } .flags = some (0, 0, 3) := by decide
theorem test_jgt_taken : seen 0xE805 { withRegs [(.flags, 0b0010)] with pc := 2 } .flags = some (0, 0, 5) := by decide
theorem test_jgt_not_taken : seen 0xE805 { withRegs [(.flags, 0b0000)] with pc := 2 } .flags = some (0, 0, 3) := by decide
theorem test_je_taken_largest : seen 0xFFFF { withRegs [(.flags, 0b0001)] with pc := 2 } .flags = some (0, 0, 127) := by decide
theorem test_je_not_taken : seen 0xF805 { withRegs [(.flags, 0b1000)] with pc := 2 } .flags = some (0, 0, 3) := by decide
theorem test_fadd : (after 0x8053 { withRegs [(.r1, 0x1234), (.flags, 0b0100)] with pc := 7 }).map (fun t => { t with pc := 0 }) =
    some { ({ withRegs [(.r1, 0x1234), (.flags, 0b0100)] with pc := 7 } : State).withFetchWord 16 0x8053 with pc := 0 } := by decide
theorem test_fadd_pc : (after 0x8053 { start with pc := 7 }).map (·.pc) = some 8 := by decide
theorem test_fsub : (after 0x89FF { withRegs [(.r1, 0x1234), (.flags, 0b0100)] with pc := 7 }).map (fun t => { t with pc := 0 }) =
    some { ({ withRegs [(.r1, 0x1234), (.flags, 0b0100)] with pc := 7 } : State).withFetchWord 16 0x89FF with pc := 0 } := by decide
theorem test_fsub_pc : (after 0x89FF { start with pc := 7 }).map (·.pc) = some 8 := by decide
theorem test_movf : (after 0x9083 { withRegs [(.r1, 0x1234), (.flags, 0b0100)] with pc := 7 }).map (fun t => { t with pc := 0 }) =
    some { ({ withRegs [(.r1, 0x1234), (.flags, 0b0100)] with pc := 7 } : State).withFetchWord 16 0x9083 with pc := 0 } := by decide
theorem test_movf_pc : (after 0x9083 { start with pc := 7 }).map (·.pc) = some 8 := by decide
theorem test_setb_top : seen 0x988F (withRegs [(.r1, 0)]) .r1 = some (0x8000, 0, 1) := by decide
theorem test_setb_beyond : seen 0x9890 (withRegs [(.r1, 1)]) .r1 = some (1, 0, 1) := by decide
theorem test_clrb_bottom : seen 0xA080 (withRegs [(.r1, 0xFFFF)]) .r1 = some (0xFFFE, 0, 1) := by decide
theorem test_clrb_beyond : seen 0xA094 (withRegs [(.r1, 0xFFFF)]) .r1 = some (0xFFFF, 0, 1) := by decide
theorem test_tglb_clears : seen 0xA883 (withRegs [(.r1, 8)]) .r1 = some (0, 0, 1) := by decide
theorem test_tglb_beyond : seen 0xA890 (withRegs [(.r1, 1)]) .r1 = some (1, 0, 1) := by decide
theorem test_rol_plain : seen 0xB084 (withRegs [(.r1, 0xABCD)]) .r1 = some (0xBCDA, 0, 1) := by decide
theorem test_rol_count_17 :
    faultSeen 0xB091 (withRegs [(.r1, 0xABCD)]) = some (some ⟨.shiftCountFault 17, 0, some 0xB091⟩, true) := by decide
theorem test_ror_plain : seen 0xB884 (withRegs [(.r1, 0xABCD)]) .r1 = some (0xDABC, 0, 1) := by decide
theorem test_ror_width : seen 0xB890 (withRegs [(.r1, 0xABCD)]) .r1 = some (0xABCD, 0, 1) := by decide
theorem test_hlt :
    (after 0xD000 { withRegs [(.flags, 0b0100)] with pc := 3 }).map (fun t => (t.halted, t.pc, t.regs.flags)) =
      some (true, 3, 0b0100) := by decide
theorem test_nop24 : (after 0xC000 { withRegs [(.flags, 1)] with pc := 9 }).map (fun t => (t.pc, t.regs.flags)) = some (10, 1) := by decide
theorem test_nop25 : (after 0xC800 { withRegs [(.flags, 1)] with pc := 9 }).map (fun t => (t.pc, t.regs.flags)) = some (10, 1) := by decide
theorem test_nop27 : (after 0xD800 { withRegs [(.flags, 1)] with pc := 9 }).map (fun t => (t.pc, t.regs.flags)) = some (10, 1) := by decide
theorem test_nop30 : (after 0xF000 { withRegs [(.flags, 1)] with pc := 9 }).map (fun t => (t.pc, t.regs.flags)) = some (10, 1) := by decide

/-! ### Faults, ends, fetch -/

/-- 95_test_vectors.md program P4: field 8:6 of ADD is 111. -/
theorem test_register_fault_record :
    faultSeen 0x01C0 { start with pc := 1 } = some (some ⟨.registerFault 7 .bits8to6, 1, some 0x01C0⟩, true) := by decide

/-- The second field of CMP (95_test_vectors.md, 0x7007). -/
theorem test_register_fault_second_field :
    faultSeen 0x7007 start = some (some ⟨.registerFault 7 .bits2to0, 0, some 0x7007⟩, true) := by decide

/-- Fetch at pc = 256 (95_test_vectors.md): no word, no change. -/
theorem test_fetch_past_memory :
    after 0 { start with pc := 256 } =
      some { start with pc := 256, fault := some ⟨.memoryFault 256, 256, none⟩ } := by decide

theorem test_fault_codes :
    (FaultKind.memoryFault 256).code = 1 ∧ (FaultKind.registerFault 7 .bits8to6).code = 2 ∧
      (FaultKind.shiftCountFault 17).code = 3 ∧ (FaultKind.loadError 1).code = 4 := by decide

theorem test_no_step_after_halt : after 0 { start with halted := true } = none := by decide

/-- An empty cell decodes as ADD R0, R0, R0 (20_memory.md R62). -/
theorem test_zero_word_doubles_r0 : seen 0 (withRegs [(.r0, 0x7FFF)]) .r0 = some (0xFFFE, 0, 1) := by decide

/-! ### Memory -/

theorem test_memory_zero_write_unlists : ((start.mem.write 8 5).write 8 0) = start.mem := by decide
theorem test_memory_order : ((start.mem.write 9 1).write 3 2) = ((start.mem.write 3 2).write 9 1) := by decide
theorem test_memory_wf_refuses :
    (Memory.mk [(3, 1), (3, 2)]).wf = false ∧ (Memory.mk [(3, 0)]).wf = false ∧ (Memory.mk [(256, 1)]).wf = false ∧
      (Memory.mk [(4, 1), (3, 2)]).wf = false := by decide

/-! ### Loader and observer -/

/-- Program P1 of 95_test_vectors.md, as words. -/
def programP1 : List Word := [0x1005, 0x1083, 0x0081, 0xD000]

theorem test_load_text :
    load [" 0001000000000101".toList, "1101000000000000\n".toList, []] = launch [0x1005, 0xD000] := by rfl
theorem test_load_error_line : load ["1".toList, "12".toList] = .fault (.loadAborted (.loadError 2)) := by rfl
theorem test_load_too_wide : load ["10000000000000000".toList] = .fault (.loadAborted (.loadError 1)) := by rfl
theorem test_load_interior_empty :
    load ["1".toList, [], "1".toList] = .refused (.launchNotDescribed .interiorEmptyLine) := by rfl
theorem test_load_nothing : load [[]] = .refused (.launchNotDescribed .noProgram) := by rfl

/-- The trace line of P1's first step begins with its pc and R0 = 5 (95_test_vectors.md). -/
theorem test_trace_line_p1_pc : (stepLine (launchState programP1)).map (·.take 8) = some "0000000 ".toList := by decide
theorem test_trace_line_p1_r0 :
    (stepLine (launchState programP1)).map (fun l => (l.drop 8).take 17) = some "0000000000000101 ".toList := by decide

/-- pc 255 prints with 8 digits (95_test_vectors.md program P5). -/
theorem test_pc_text : pcText 255 = "11111111".toList ∧ pcText 3 = "0000011".toList := by decide

/-- The end state of P1 (95_test_vectors.md). -/
theorem test_p1_end :
    (match Sys2Proof.core.run 4 (launchState programP1) with
      | .next (t : State) => some (t.halted, t.pc, t.regs.r0, t.regs.r1, t.regs.r2, t.regs.flags)
      | .fault _ => none
      | .refused _ => none) = some (true, 3, 5, 3, 8, 0) := by decide

/-! ### Witnesses: states and operands that meet the hypotheses of each obligation, at the edges of its clauses -/

theorem witness_RegisterFieldsNameRegisters : (6 : RegField) ≠ 7 := by decide

theorem witness_StepRunsDecodedInstruction :
    ({ start with pc := 255 } : State).Running ∧ ({ start with pc := 255 } : State).pc.toNat < 256 ∧
      ({ start with pc := 256 } : State).Running ∧ 256 ≤ ({ start with pc := 256 } : State).pc.toNat := by decide

theorem witness_StepHasOneOfThreeOutcomes :
    start.Running ∧ ¬ ({ start with halted := true } : State).Running ∧
      ¬ ({ start with fault := some ⟨.memoryFault 256, 256, none⟩, pc := 256 } : State).Running := by decide

theorem witness_PcUpdate_plain : ∃ s t : State, step s = .next t ∧ t.fault = none ∧ t.halted = false ∧
    (decode (s.mem.read s.pc.toNat)).takenJump s.regs.flags = none := ⟨start, _, rfl, rfl, rfl, rfl⟩
theorem witness_PcUpdate_jump : ∃ s t : State, step s = .next t ∧ t.fault = none ∧ t.halted = false ∧
    (decode (s.mem.read s.pc.toNat)).takenJump s.regs.flags = some 5 :=
  ⟨start.withFetchWord 16 0x7805, _, rfl, rfl, rfl, rfl⟩
theorem witness_PcUpdate_halt : ∃ s t : State, step s = .next t ∧ t.fault = none ∧ t.halted = true :=
  ⟨start.withFetchWord 16 0xD000, _, rfl, rfl, rfl⟩
theorem witness_OnlyHltHalts : ∃ s t : State, exec .hlt s = .next t ∧ step s = .next t ∧ t.halted = true :=
  ⟨start.withFetchWord 16 0xD000, _, rfl, rfl, rfl⟩

/-- Registers at the edges: 65535 + 0 and 65535 + 1; 7 - 7 and 0 - 1; 255 * 257 and 256 * 256. -/
theorem witness_AddResult :
    (2 : RegField) ≠ 7 ∧ ((withRegs [(.r0, 65535), (.r1, 0)]).x 0).toNat + ((withRegs [(.r0, 65535), (.r1, 0)]).x 1).toNat = 65535 ∧
      ((withRegs [(.r0, 65535), (.r1, 1)]).x 0).toNat + ((withRegs [(.r0, 65535), (.r1, 1)]).x 1).toNat > 65535 := by decide
theorem witness_SubResult :
    (3 : RegField) ≠ 7 ∧ ¬ ((withRegs [(.r4, 7), (.r5, 7)]).x 4).toNat < ((withRegs [(.r4, 7), (.r5, 7)]).x 5).toNat ∧
      ((withRegs [(.r4, 0), (.r5, 1)]).x 4).toNat < ((withRegs [(.r4, 0), (.r5, 1)]).x 5).toNat := by decide
theorem witness_MulResult :
    (6 : RegField) ≠ 7 ∧ ((withRegs [(.r1, 255), (.r2, 257)]).x 1).toNat * ((withRegs [(.r1, 255), (.r2, 257)]).x 2).toNat = 65535 ∧
      ((withRegs [(.r1, 256), (.r2, 256)]).x 1).toNat * ((withRegs [(.r1, 256), (.r2, 256)]).x 2).toNat > 65535 := by decide
theorem witness_DivResult :
    (2 : RegField) ≠ 7 ∧ (start.x 3).toNat = 0 ∧ ((withRegs [(.r3, 1)]).x 3).toNat ≠ 0 := by decide
theorem witness_OverflowIsNoFault :
    ((withRegs [(.r0, 65535), (.r1, 1)]).x 0).toNat + ((withRegs [(.r0, 65535), (.r1, 1)]).x 1).toNat > 65535 ∧
      ((withRegs [(.r1, 1)]).x 0).toNat < ((withRegs [(.r1, 1)]).x 1).toNat ∧
      ((withRegs [(.r0, 256), (.r1, 256)]).x 0).toNat * ((withRegs [(.r0, 256), (.r1, 256)]).x 1).toNat > 65535 ∧
      (start.x 1).toNat = 0 ∧ (0 : RegField) ≠ 7 ∧ (1 : RegField) ≠ 7 := by decide
theorem witness_DivisionLaw : ∃ s t : State, (2 : RegField) ≠ 7 ∧ (3 : RegField) ≠ 7 ∧ s.x 3 ≠ 0 ∧
    exec (.div 2 3) s = .next t := ⟨withRegs [(.r2, 17), (.r3, 5)], _, by decide, by decide, by decide, rfl⟩
theorem witness_MoviResult : (0 : RegField) ≠ 7 ∧ (7 : RegField) = 7 := by decide
theorem witness_MovrResult : (6 : RegField) ≠ 7 := by decide
theorem witness_LdResult :
    (3 : RegField) ≠ 7 ∧ (127 : Addr).toNat + ({ start with ic := 128 } : State).ic < 256 ∧
      256 ≤ (127 : Addr).toNat + ({ start with ic := 129 } : State).ic := by decide
theorem witness_StResult :
    (2 : RegField) ≠ 7 ∧ (127 : Addr).toNat + ({ start with ic := 128 } : State).ic < 256 ∧
      256 ≤ (127 : Addr).toNat + ({ start with ic := 129 } : State).ic := by decide
theorem witness_StoreThenLoad : ∃ s t : State, (2 : RegField) ≠ 7 ∧ (4 : RegField) ≠ 7 ∧
    (4 : Addr).toNat + s.ic < 256 ∧ exec (.st 2 4) s = .next t :=
  ⟨withRegs [(.r2, 8)], _, by decide, by decide, by decide, rfl⟩
theorem witness_FetchSeesStore : ∃ s t : State, s.Running ∧ (0 : RegField) ≠ 7 ∧ (0 : Addr).toNat + s.ic < 256 ∧
    exec (.st 0 0) s = .next t ∧ (4 : Pc).toNat = (0 : Addr).toNat + s.ic :=
  ⟨withRegs [(.r0, 0xD000)], _, by decide, by decide, by decide, rfl, by decide⟩
theorem witness_ShiftResults : (1 : RegField) ≠ 7 := by decide
theorem witness_LogicResults : (1 : RegField) ≠ 7 ∧ (2 : RegField) ≠ 7 ∧ (3 : RegField) ≠ 7 := by decide
theorem witness_NotResult : (1 : RegField) ≠ 7 ∧ (2 : RegField) ≠ 7 := by decide
theorem witness_BitResults : (1 : RegField) ≠ 7 ∧ 15 < 16 := by decide
theorem witness_RotateResults :
    (1 : RegField) ≠ 7 ∧ (0 : Imm).toNat ≤ 16 ∧ (16 : Imm).toNat ≤ 16 ∧ 16 < (17 : Imm).toNat := by decide
theorem witness_RotateRoundTrip : ∃ s t : State, (1 : RegField) ≠ 7 ∧ (16 : Imm).toNat ≤ 16 ∧
    exec (.rol 1 16) s = .next t := ⟨withRegs [(.r1, 0xABCD)], _, by decide, by decide, rfl⟩
theorem witness_CmpResult : (0 : RegField) ≠ 7 ∧ (1 : RegField) ≠ 7 := by decide
theorem witness_HltHalts : start.fault = none := rfl
theorem witness_FirstBadFieldFaults :
    (Instr.add 0 7 7).regFields = [(0, .bits8to6)] ++ (7, .bits5to3) :: [(7, .bits2to0)] ∧
      (∀ f ∈ [((0 : RegField), FieldPos.bits8to6)], f.1 ≠ 7) := by decide
theorem witness_ExistingOperandsNeverFault : (Instr.ld 0 127).wellFormed = true ∧
    (∀ d n, Instr.ld 0 127 = .ld d n ∨ Instr.ld 0 127 = .st d n → n.toNat + ({ start with ic := 128 } : State).ic < 256) := by
  refine ⟨by decide, fun d n h => ?_⟩
  rcases h with h | h
  · cases h; decide
  · cases h
theorem witness_FaultsArePrecise : ∃ (s t : State) (r : FaultRecord), step s = .next t ∧ t.fault = some r :=
  ⟨{ start with pc := 256 }, _, _, rfl, rfl⟩
theorem witness_FaultCauses_field : ∃ (s t : State) (r : FaultRecord), step s = .next t ∧ t.fault = some r ∧
    r.kind.code = 2 := ⟨start.withFetchWord 16 0x01C0, _, _, rfl, rfl, rfl⟩
theorem witness_FaultCauses_count : ∃ (s t : State) (r : FaultRecord), step s = .next t ∧ t.fault = some r ∧
    r.kind.code = 3 := ⟨start.withFetchWord 16 0xB091, _, _, rfl, rfl, rfl⟩
theorem witness_FaultCauses_address : ∃ (s t : State) (r : FaultRecord), step s = .next t ∧ t.fault = some r ∧
    r.kind = .memoryFault 256 :=
  ⟨({ start with ic := 129 } : State).withFetchWord 16 0x297F, _, _, rfl, rfl, rfl⟩
theorem witness_UpperFlagBitsOnlyByMovr : ∃ s t : State, (∀ a, Instr.cmp 0 1 ≠ .movr 7 a) ∧
    exec (.cmp 0 1) s = .next t ∧ s.regs.flags >>> 4 ≠ 0 :=
  ⟨withRegs [(.flags, 0xABC0)], _, fun _ h => (by cases h), rfl, by decide⟩
theorem witness_OnlyStoreChangesMemory : ∃ s t : State, exec (.st 2 4) s = .next t ∧ t.mem.read 8 ≠ s.mem.read 8 :=
  ⟨withRegs [(.r2, 8)], _, rfl, by decide⟩
theorem witness_OnlyLoadStoreUseIc : ∀ d n, Instr.add 0 0 0 ≠ .ld d n ∧ Instr.add 0 0 0 ≠ .st d n :=
  fun _ _ => ⟨fun h => (by cases h), fun h => (by cases h)⟩
theorem witness_RunsKeepProgramRegion : ∃ s t : State, Sys2Proof.core.run 2 s = .next t ∧ 3 < s.ic := ⟨start, _, rfl, by decide⟩
theorem witness_InvariantKeptByStep : ∃ s t : State, Inv s ∧ step s = .next t :=
  ⟨launchState programP1, _, ⟨by decide, by decide, by decide, fun _ => rfl, fun _ h => by cases h⟩, rfl⟩
theorem witness_LaunchMeetsPremises :
    1 ≤ [(0xD000 : Word)].length ∧ (List.replicate 256 (0 : Word)).length ≤ 256 :=
  ⟨by decide, (List.length_replicate).le⟩
theorem witness_LoadErrorNamesFirstBadLine :
    (∀ l ∈ ["1".toList, []], trimLine l = [] ∨ parseWord (trimLine l) ≠ none) ∧ trimLine "2".toList ≠ [] ∧
      parseWord (trimLine "2".toList) = none := by decide
theorem witness_LoadReadsWordText : [(0xD000 : Word)] ≠ [] := by decide
theorem witness_DumpShowsEveryCell : (255 : Nat) < 256 := by decide

end Sys2Proof.Tests
end

section
/-! The outcomes of one step (00_scope.md R10). -/

namespace Sys2Proof.Machine

/-- A state that does not run has no step (00_scope.md R10). -/
theorem step_not_running {s : State} (h : ¬ s.Running) : ∃ f, step s = .fault f := by
  obtain ⟨f, hf⟩ := Option.ne_none_iff_exists'.mp (mt (stopped_eq_none_iff s).mp h)
  exact ⟨f, by simp only [step, hf]⟩

/-- A running state has a step: the fetch faults, or the decoded instruction takes effect (10_state.md R31, R33). -/
theorem step_effect {s : State} (h : s.Running) :
    ∃ t, step s = .next t ∧
      (t = s.raise (.memoryFault s.pc.toNat) ∨ Effect (decode (s.mem.read s.pc.toNat)) s t) := by
  rw [step_running h, State.fetch]
  by_cases hp : s.pc.toNat < 256
  · obtain ⟨t, ht, he⟩ := exec_effect (decode (s.mem.read s.pc.toNat)) s
    rw [memRead_inside hp]
    exact ⟨t, ht, .inr he⟩
  · rw [memRead_outside (Nat.not_lt.mp hp)]
    exact ⟨_, rfl, .inl rfl⟩

/-- Taking a fault in a running state ends in a faulted state that is not halted (60_exceptions.md R221). -/
theorem raise_faulted {s : State} (h : s.Running) (k : FaultKind) :
    (s.raise k).halted = false ∧ (s.raise k).fault ≠ none :=
  ⟨h.1, Option.some_ne_none _⟩

/-- An instruction that takes effect in a running state leaves it running, halts it and changes nothing else, or faults:
only `raise` touches the fault record and only HLT touches `halted`. -/
theorem effect_outcome {i : Instr} {s t : State} (h : s.Running) (he : Effect i s t) :
    t.Running ∨ t = { s with halted := true } ∨ (t.halted = false ∧ t.fault ≠ none) := by
  cases he with
  | fault k => exact .inr (.inr (raise_faulted h k))
  | halt => exact .inr (.inl rfl)
  | store | regs | jump => exact .inl h

/-- Settles O7: a step from a running state is a faulting fetch or an instruction's effect, and each of these is one of
the three outcomes. -/
theorem stepHasOneOfThreeOutcomes : Obligations.StepHasOneOfThreeOutcomes := by
  refine fun s => ⟨fun hrun => ?_, step_not_running⟩
  obtain ⟨t, ht, rfl | he⟩ := step_effect hrun
  · exact ⟨_, ht, .inr (.inr (raise_faulted hrun _))⟩
  · exact ⟨t, ht, effect_outcome hrun he⟩

end Sys2Proof.Machine
end

section
/-! What every step keeps, from the effects of an instruction: the invariant, the pc and `halted` (10_state.md R28, R30,
R34). -/

namespace Sys2Proof.Machine

/-- Below 256 the pc advances with no wrap, and so to at most 256 (10_state.md R28, R30). -/
theorem pc_succ_toNat {p : Pc} (h : p.toNat < 256) : (p + 1).toNat = p.toNat + 1 := by
  bv_omega

/-- The detail that an executing instruction records is one that 60_exceptions.md R220 allows. -/
theorem FaultCause.possible {i : Instr} {s : State} {k : FaultKind} (h : FaultCause i s k) : k.possible = true := by
  cases h with
  | field => rfl
  | count n _ hn => exact decide_eq_true hn
  | load d n _ ha | store d n _ ha => exact decide_eq_true ha

/-- Where there is no fault record, the invariant is about memory, the pc and IC alone. -/
theorem inv_of_no_fault {s : State} (hf : s.fault = none) (hmem : s.mem.wf = true) (hpc : s.pc.toNat ≤ 256)
    (hic : s.ic ≤ 256) : Inv s where
  mem := hmem
  pc := hpc
  ic := hic
  oneEnd h := absurd hf h
  record r hr := by simp [hf] at hr

/-- Taking a fault with an allowed detail in a running state keeps the invariant: the record that `raise` makes is the
one of 60_exceptions.md R222. -/
theorem inv_raise {s : State} {k : FaultKind} (hinv : Inv s) (hrun : s.Running) (hk : k.possible = true) :
    Inv (s.raise k) where
  mem := hinv.mem
  pc := hinv.pc
  ic := hinv.ic
  oneEnd _ := hrun.1
  record r hr := by
    obtain rfl : _ = r := Option.some.inj hr
    exact ⟨rfl, hk⟩

/-- Every effect of an instruction fetched inside memory keeps the invariant. -/
theorem inv_effect {i : Instr} {s t : State} (hinv : Inv s) (hrun : s.Running) (hp : s.pc.toNat < 256)
    (he : Effect i s t) : Inv t := by
  have hnext : (s.pc + 1).toNat ≤ 256 := by rw [pc_succ_toNat hp]; exact hp
  cases he with
  | fault k hk => exact inv_raise hinv hrun hk.possible
  | halt => exact inv_of_no_fault hrun.2 hinv.mem hinv.pc hinv.ic
  | store d n _ _ ha => exact inv_of_no_fault hrun.2 (Memory.write_wf hinv.mem ha) hnext hinv.ic
  | regs rf => exact inv_of_no_fault hrun.2 hinv.mem hnext hinv.ic
  | jump n =>
    refine inv_of_no_fault hrun.2 hinv.mem ?_ hinv.ic
    have := n.isLt
    rw [jumpTarget_toNat]
    omega

/-- Settles O44: a step is a faulting fetch, which records an address of 256 or more, or an instruction's effect. -/
theorem invariantKeptByStep : Obligations.InvariantKeptByStep := by
  intro s t hinv hstep
  obtain ⟨hrun, ⟨hp, rfl⟩ | ⟨hp, hexec⟩⟩ := step_cases hstep
  · exact inv_raise hinv hrun (decide_eq_true hp)
  · exact inv_effect hinv hrun hp (exec_cases hexec)

/-- Settles O43. -/
theorem invariantAtReset : Obligations.InvariantAtReset :=
  inv_of_no_fault rfl reset_mem_wf (by decide) (by decide)

/-! ### The pc -/

/-- The pc after an effect that does not fault in a running state (10_state.md R30): only `halt` ends halted, and only
`jump` has a target. -/
theorem effect_pc {i : Instr} {s t : State} (hrun : s.Running) (hp : s.pc.toNat < 256) (hf : t.fault = none)
    (he : Effect i s t) :
    (t.halted = true → t.pc = s.pc) ∧
      (t.halted = false →
        t.pc.toNat = (i.takenJump s.regs.flags).elim (s.pc.toNat + 1) BitVec.toNat) := by
  have hrunning : s.halted ≠ true := Bool.eq_false_iff.mp hrun.1
  cases he with
  | fault k => simp at hf
  | halt => exact ⟨fun _ => rfl, fun h => by cases h⟩
  | store d n hi =>
    subst hi
    exact ⟨fun h => absurd h hrunning, fun _ => pc_succ_toNat hp⟩
  | regs rf hj => exact ⟨fun h => absurd h hrunning, fun _ => by rw [hj]; exact pc_succ_toNat hp⟩
  | jump n hj => exact ⟨fun h => absurd h hrunning, fun _ => by rw [hj]; exact jumpTarget_toNat n⟩

/-- Settles O8: a fetch that faults is excluded, and for an executed instruction it is `effect_pc`. -/
theorem pcUpdate : Obligations.PcUpdate := by
  intro s t hstep hf
  obtain ⟨hrun, ⟨-, rfl⟩ | ⟨hp, hexec⟩⟩ := step_cases hstep
  · simp at hf
  · obtain ⟨hhalt, hrest⟩ := effect_pc hrun hp hf (exec_cases hexec)
    refine ⟨hhalt, fun h => ?_⟩
    split
    · next n hj => simpa [hj] using hrest h
    · next hj => simpa [hj] using hrest h

/-! ### `halted` -/

/-- HLT decodes no field, counts nothing and addresses nothing, so it never faults. -/
theorem FaultCause.ne_hlt {i : Instr} {s : State} {k : FaultKind} (h : FaultCause i s k) : i ≠ .hlt := by
  rintro rfl
  cases h with
  | field p hp => simp [Instr.regFields] at hp
  | count n hn => simp [Instr.rotateCount] at hn
  | load d n hi | store d n hi => cases hi

/-- Only HLT changes `halted` (10_state.md R34). -/
theorem effect_halted {i : Instr} {s t : State} (he : Effect i s t) : t.halted = (s.halted || i == .hlt) := by
  have keeps (h : i ≠ .hlt) : s.halted = (s.halted || i == .hlt) := by simp [h]
  cases he with
  | fault k hk => exact keeps hk.ne_hlt
  | halt hi => simp [hi]
  | store d n hi => exact keeps (by simp [hi])
  | regs rf _ hi => exact keeps hi
  | jump n hj =>
    refine keeps ?_
    rintro rfl
    simp [Instr.takenJump] at hj

/-- Settles O9: the effect of an instruction on `halted`, and that only a running state has a step. -/
theorem onlyHltHalts : Obligations.OnlyHltHalts :=
  ⟨rfl, fun _ _ _ h => effect_halted (exec_cases h), fun _ _ h => (step_cases h).1.1,
    fun _ h => step_not_running fun hrun => by simp [hrun.1] at h⟩

end Sys2Proof.Machine
end

section
/-! Bits 15:4 of FLAGS (10_state.md R23): the ends of instructions either clear them or leave them. -/

namespace Sys2Proof.Machine

/-- From `s` to `t`, bits 15:4 of FLAGS are cleared or as before. -/
def UpperFlagsKept (s t : State) : Prop :=
  t.regs.flags >>> 4 = 0 ∨ t.regs.flags >>> 4 = s.regs.flags >>> 4

/-- A result that is a next state in which bits 15:4 of FLAGS are cleared or as before. -/
def AnswersUpperFlagsKept (s : State) (r : Result) : Prop := ∃ t, r = .next t ∧ UpperFlagsKept s t

theorem upperFlagsKept_of_zero {s t : State} (h : t.regs.flags = 0) : UpperFlagsKept s t := .inl (by rw [h]; rfl)

theorem upperFlagsKept_of_eq {s t : State} (h : t.regs.flags = s.regs.flags) : UpperFlagsKept s t :=
  .inr (by rw [h])

/-- Setting one of the four named flags leaves bits 15:4. -/
theorem upperFlagsKept_of_or {s t : State} {m : Word} (hm : m >>> 4 = 0) (h : t.regs.flags = s.regs.flags ||| m) :
    UpperFlagsKept s t := .inr (by simp [h, BitVec.ushiftRight_or_distrib, hm])

theorem compareMask_upper (a b : Word) : compareMask a b >>> 4 = 0 := by
  unfold compareMask
  split
  · rfl
  · split <;> rfl

/-! ### Ends of instructions -/

theorem writeBack_upperFlagsKept {d : RegId} (s : State) (v : Word) (h : d ≠ .flags) :
    UpperFlagsKept s (s.writeBack d v) :=
  upperFlagsKept_of_zero (by rw [← State.getReg_flags, writeBack_getReg, if_neg h.symm, if_pos rfl])

theorem arithEnd_upperFlagsKept {d : RegId} (s : State) (r : Option Word) (h : d ≠ .flags) :
    UpperFlagsKept s (s.arithEnd false d r) := by
  cases r with
  | some v => exact writeBack_upperFlagsKept s v h
  | none =>
    refine upperFlagsKept_of_or (m := maskOV) rfl ?_
    rw [← State.getReg_flags, arithEnd_overflow_getReg, if_neg h.symm, if_pos rfl, State.getReg_flags]

theorem divEnd_upperFlagsKept (s : State) (r : Option (Word × Word)) : UpperFlagsKept s (s.divEnd r) := by
  cases r with
  | some qm => exact upperFlagsKept_of_zero rfl
  | none => exact upperFlagsKept_of_or (m := maskOV) rfl rfl

theorem jumpIf_upperFlagsKept (s : State) (m : Word) (n : Addr) : UpperFlagsKept s (s.jumpIf m n) :=
  upperFlagsKept_of_zero (by rw [jumpIf_eq]; rfl)

/-! ### Operand checks -/

/-- A register field that names a register never names FLAGS, and a field of 111 faults (30_encoding.md R76). -/
theorem withReg_upperFlagsKept {f : RegField} {p : FieldPos} {s : State} {k : RegId → Result}
    (hk : ∀ r, r ≠ .flags → AnswersUpperFlagsKept s (k r)) : AnswersUpperFlagsKept s (withReg f p s k) := by
  by_cases hf : f = 7
  · subst hf
    exact ⟨_, withReg_seven, upperFlagsKept_of_eq rfl⟩
  · rw [withReg_valid hf]
    exact hk _ (regm_ne_flags hf)

theorem withRegsA_upperFlagsKept {f g h : RegField} {s : State} {k : RegId → RegId → RegId → State}
    (hk : ∀ x y z, x ≠ .flags → UpperFlagsKept s (k x y z)) : AnswersUpperFlagsKept s (withRegsA f g h s k) :=
  withReg_upperFlagsKept fun _ hx => withReg_upperFlagsKept fun _ _ => withReg_upperFlagsKept fun _ _ =>
    ⟨_, rfl, hk _ _ _ hx⟩

theorem withRegsC_upperFlagsKept {f g : RegField} {s : State} {k : RegId → RegId → State}
    (hk : ∀ x y, x ≠ .flags → UpperFlagsKept s (k x y)) : AnswersUpperFlagsKept s (withRegsC f g s k) :=
  withReg_upperFlagsKept fun _ hx => withReg_upperFlagsKept fun _ _ => ⟨_, rfl, hk _ _ hx⟩

theorem writeBackBD_upperFlagsKept {f : RegField} {s : State} (v : RegId → Word) :
    AnswersUpperFlagsKept s (withRegBD f s fun d => .next (s.writeBack d (v d))) :=
  withReg_upperFlagsKept fun _ hd => ⟨_, rfl, writeBack_upperFlagsKept s _ hd⟩

theorem rotate_upperFlagsKept {f : RegField} {n : Imm} {s : State} (v : RegId → Word) :
    AnswersUpperFlagsKept s (withRegBD f s fun d => withRotateCount n s (s.writeBack d (v d))) := by
  refine withReg_upperFlagsKept fun d hd => ?_
  unfold withRotateCount
  split
  · exact ⟨_, rfl, upperFlagsKept_of_eq rfl⟩
  · exact ⟨_, rfl, writeBack_upperFlagsKept s _ hd⟩

/-- Every instruction but a MOVR to FLAGS clears bits 15:4 of FLAGS or leaves them. -/
theorem exec_upperFlagsKept (i : Instr) (s : State) (h : ∀ a, i ≠ .movr 7 a) :
    AnswersUpperFlagsKept s (exec i s) := by
  have unchanged {t : State} (ht : t.regs.flags = s.regs.flags) : AnswersUpperFlagsKept s (.next t) :=
    ⟨t, rfl, upperFlagsKept_of_eq ht⟩
  have cleared {t : State} (ht : t.regs.flags = 0) : AnswersUpperFlagsKept s (.next t) :=
    ⟨t, rfl, upperFlagsKept_of_zero ht⟩
  cases i with
  | add d a b | sub d a b | mul d a b =>
    exact withRegsA_upperFlagsKept fun _ _ _ hd => arithEnd_upperFlagsKept s _ hd
  | xor d a b | or d a b | and d a b =>
    exact withRegsA_upperFlagsKept fun _ _ _ hd => writeBack_upperFlagsKept s _ hd
  | div a b => exact withRegsC_upperFlagsKept fun _ _ _ => divEnd_upperFlagsKept s _
  | not d a => exact withRegsC_upperFlagsKept fun _ _ hd => writeBack_upperFlagsKept s _ hd
  | cmp a b => exact withRegsC_upperFlagsKept fun _ _ _ => upperFlagsKept_of_or (compareMask_upper _ _) rfl
  | movi d n | rs d n | ls d n | setb d n | clrb d n | tglb d n => exact writeBackBD_upperFlagsKept _
  | rol d n | ror d n => exact rotate_upperFlagsKept _
  | movr d a => exact ⟨_, rfl, writeBack_upperFlagsKept s _ (regm_ne_flags fun hd => h a (by rw [hd]))⟩
  | ld d n =>
    refine withReg_upperFlagsKept fun r hr => ?_
    split
    · exact ⟨_, rfl, writeBack_upperFlagsKept s _ hr⟩
    · exact unchanged rfl
  | st d n =>
    refine withReg_upperFlagsKept fun r _ => ?_
    split
    · exact cleared rfl
    · exact unchanged rfl
  | fadd d a b | fsub d a b | movf d n | nop24 | nop25 | nop27 | nop30 | hlt => exact unchanged rfl
  | jmp n => exact cleared rfl
  | jlt n | jgt n | je n => exact ⟨_, rfl, jumpIf_upperFlagsKept s _ n⟩

/-- Settles O39. -/
theorem upperFlagBitsOnlyByMovr : Obligations.UpperFlagBitsOnlyByMovr := by
  intro i s t hi ht
  obtain ⟨t', ht', hkept⟩ := exec_upperFlagsKept i s hi
  obtain rfl : t = t' := Host.Outcome.next.inj (ht.symm.trans ht')
  exact hkept

end Sys2Proof.Machine
end

section
/-! IC (10_state.md R35): every operation but the effective address commutes with another value of IC. -/

namespace Sys2Proof.Machine

/-- The state with another value of IC. -/
def State.withIc (s : State) (c : Nat) : State := { s with ic := c }

/-- Two results that are the same next state but for IC, which is `c` in the second. -/
def SameButIc (c : Nat) (r r' : Result) : Prop := ∃ t : State, r = .next t ∧ r' = .next (t.withIc c)

theorem arithEnd_withIc (s : State) (c : Nat) (b : Bool) (d : RegId) (r : Option Word) :
    (s.withIc c).arithEnd b d r = (s.arithEnd b d r).withIc c := by
  cases r <;> cases b <;> rfl

theorem divEnd_withIc (s : State) (c : Nat) (r : Option (Word × Word)) :
    (s.withIc c).divEnd r = (s.divEnd r).withIc c := by
  cases r <;> rfl

theorem jumpIf_withIc (s : State) (c : Nat) (m : Word) (n : Addr) :
    (s.withIc c).jumpIf m n = (s.jumpIf m n).withIc c := by
  rw [jumpIf_eq, jumpIf_eq]
  rfl

theorem withReg_sameButIc {f : RegField} {p : FieldPos} {s : State} {c : Nat} {k k' : RegId → Result}
    (hk : ∀ r, SameButIc c (k r) (k' r)) : SameButIc c (withReg f p s k) (withReg f p (s.withIc c) k') := by
  by_cases hf : f = 7
  · subst hf
    exact ⟨_, withReg_seven, rfl⟩
  · rw [withReg_valid hf, withReg_valid hf]
    exact hk _

theorem withRegsA_sameButIc {f g h : RegField} {s : State} {c : Nat} {k k' : RegId → RegId → RegId → State}
    (hk : ∀ x y z, k' x y z = (k x y z).withIc c) :
    SameButIc c (withRegsA f g h s k) (withRegsA f g h (s.withIc c) k') :=
  withReg_sameButIc fun x => withReg_sameButIc fun y => withReg_sameButIc fun z => ⟨_, rfl, by rw [hk]⟩

theorem withRegsC_sameButIc {f g : RegField} {s : State} {c : Nat} {k k' : RegId → RegId → State}
    (hk : ∀ x y, k' x y = (k x y).withIc c) :
    SameButIc c (withRegsC f g s k) (withRegsC f g (s.withIc c) k') :=
  withReg_sameButIc fun x => withReg_sameButIc fun y => ⟨_, rfl, by rw [hk]⟩

theorem withRotateCount_sameButIc {n : Imm} {s : State} {c : Nat} {t : State} :
    SameButIc c (withRotateCount n s t) (withRotateCount n (s.withIc c) (t.withIc c)) := by
  unfold withRotateCount
  split <;> exact ⟨_, rfl, rfl⟩

/-- Every instruction but LD and ST answers the same under another value of IC. -/
theorem exec_sameButIc (i : Instr) (s : State) (c : Nat) (h : ∀ d n, i ≠ .ld d n ∧ i ≠ .st d n) :
    SameButIc c (exec i s) (exec i (s.withIc c)) := by
  cases i with
  | ld d n => exact absurd rfl (h d n).1
  | st d n => exact absurd rfl (h d n).2
  | add d a b | sub d a b | mul d a b => exact withRegsA_sameButIc fun _ _ _ => arithEnd_withIc _ _ _ _ _
  | xor d a b | or d a b | and d a b => exact withRegsA_sameButIc fun _ _ _ => rfl
  | div a b => exact withRegsC_sameButIc fun _ _ => divEnd_withIc _ _ _
  | not d a | cmp d a => exact withRegsC_sameButIc fun _ _ => rfl
  | movi d n | rs d n | ls d n | setb d n | clrb d n | tglb d n => exact withReg_sameButIc fun _ => ⟨_, rfl, rfl⟩
  | rol d n | ror d n => exact withReg_sameButIc fun _ => withRotateCount_sameButIc
  | movr d a | fadd d a b | fsub d a b | movf d n | nop24 | nop25 | nop27 | nop30 | hlt | jmp n =>
    exact ⟨_, rfl, rfl⟩
  | jlt n | jgt n | je n => exact ⟨_, rfl, congrArg _ (jumpIf_withIc _ _ _ _)⟩

/-- Settles O41. -/
theorem onlyLoadStoreUseIc : Obligations.OnlyLoadStoreUseIc := exec_sameButIc

end Sys2Proof.Machine
end

section
/-! The step loop and the reset values (10_state.md R33, R37). -/

namespace Sys2Proof.Machine

/-- Settles O6: the fetch is MemRead at pc, whose two cases are the statement's. -/
theorem stepRunsDecodedInstruction : Obligations.StepRunsDecodedInstruction := by
  intro s hrun
  rw [step_running hrun, State.fetch]
  constructor
  · intro hp
    rw [memRead_inside hp]
  · intro hp
    rw [memRead_outside hp]
    exact ⟨_, rfl, rfl⟩

/-- Settles O10. -/
theorem resetValues : Obligations.ResetValues := by
  refine ⟨rfl, rfl, rfl, fun r => ?_, fun _ => rfl⟩
  cases r <;> rfl

end Sys2Proof.Machine
end

section
/-! Memory and IC over an instruction, a step and a run (20_memory.md R53, R55, R62; 10_state.md R35): only ST writes
memory, at its address biased by IC, and so never below IC. -/

namespace Sys2Proof.Machine

/-- Memory after an instruction: as before, or with the word of an ST written (20_memory.md R53). -/
theorem effect_mem {i : Instr} {s t : State} (he : Effect i s t) :
    t.mem = s.mem ∨ ∃ r n, i = .st r n ∧ t.mem = s.mem.write (n.toNat + s.ic) (s.x r) := by
  cases he with
  | store r n hi => exact .inr ⟨r, n, hi, rfl⟩
  | fault | halt | regs | jump => exact .inl rfl

/-- No instruction writes IC (10_state.md R35). -/
theorem effect_ic {i : Instr} {s t : State} (he : Effect i s t) : t.ic = s.ic := by
  cases he <;> rfl

/-! ### The program region -/

/-- From `s` to `t`, IC and every cell below it stay as they were (20_memory.md R55). -/
def KeepsProgramRegion (s t : State) : Prop := t.ic = s.ic ∧ ∀ a, a < s.ic → t.mem.read a = s.mem.read a

theorem KeepsProgramRegion.refl (s : State) : KeepsProgramRegion s s := ⟨rfl, fun _ _ => rfl⟩

theorem KeepsProgramRegion.trans {s t u : State} (hst : KeepsProgramRegion s t) (htu : KeepsProgramRegion t u) :
    KeepsProgramRegion s u := by
  obtain ⟨hic, hmem⟩ := hst
  obtain ⟨hic', hmem'⟩ := htu
  exact ⟨hic'.trans hic, fun a ha => (hmem' a (hic ▸ ha)).trans (hmem a ha)⟩

/-- The cell that ST writes lies at IC or above it. -/
theorem effect_keepsProgramRegion {i : Instr} {s t : State} (he : Effect i s t) : KeepsProgramRegion s t := by
  refine ⟨effect_ic he, fun a ha => ?_⟩
  obtain hmem | ⟨r, n, -, hmem⟩ := effect_mem he
  · rw [hmem]
  · rw [hmem, Memory.read_write, if_neg (by omega)]

theorem step_keepsProgramRegion {s t : State} (h : step s = .next t) : KeepsProgramRegion s t := by
  obtain ⟨-, ⟨-, rfl⟩ | ⟨-, hexec⟩⟩ := step_cases h
  · exact .refl s
  · exact effect_keepsProgramRegion (exec_cases hexec)

/-- What every step keeps, every run keeps. -/
theorem core_run_keeps {P : State → Prop} (hstep : ∀ s t, P s → step s = .next t → P t) {k : Nat} {s t : State}
    (hs : P s) (hrun : Sys2Proof.core.run k s = .next t) : P t := by
  induction k generalizing s with
  | zero => exact Host.Outcome.next.inj hrun ▸ hs
  | succ k ih =>
    rw [core_run_succ] at hrun
    cases hfirst : step s with
    | next u => exact ih (hstep s u hs hfirst) (by simpa only [hfirst] using hrun)
    | fault r | refused r => simp [hfirst] at hrun

/-- Settles O42: that the region is as at the start of the run is kept by every step. -/
theorem runsKeepProgramRegion : Obligations.RunsKeepProgramRegion := fun _ s _ hrun =>
  core_run_keeps (P := KeepsProgramRegion s) (fun _ _ h ht => h.trans (step_keepsProgramRegion ht)) (.refl s) hrun

/-! ### Stores -/

/-- Settles O40: the changed cell is the one cell that a write changes. -/
theorem onlyStoreChangesMemory : Obligations.OnlyStoreChangesMemory := by
  intro i s t a hexec hne
  obtain hmem | ⟨r, n, hi, hmem⟩ := effect_mem (exec_cases hexec)
  · exact absurd (by rw [hmem]) hne
  · have hread := Memory.read_write s.mem (n.toNat + s.ic) (s.x r) a
    rw [← hmem] at hread
    split at hread
    · next ha => exact ⟨r, n, hi, ha, hread⟩
    · exact absurd hread hne

/-- ST of an existing register to a cell inside memory (42_move_memory.md R123). -/
theorem exec_st_inside {r : RegField} {n : Addr} {s : State} (hr : r ≠ 7) (ha : n.toNat + s.ic < 256) :
    exec (.st r n) s = .next
      { s with regs := s.regs.set .flags 0, mem := s.mem.write (n.toNat + s.ic) (s.x r), pc := s.pc + 1 } := by
  change execSt r n s = _
  rw [execSt, withRegBD_valid hr, effectiveAddress, memWrite_inside ha]
  rfl

/-- A step with the pc inside memory runs the word at the pc (10_state.md R33). -/
theorem step_inside {s : State} (hrun : s.Running) (hp : s.pc.toNat < 256) :
    step s = exec (decode (s.mem.read s.pc.toNat)) s := by
  rw [step_running hrun, State.fetch, memRead_inside hp]

/-- Settles O22: ST leaves the state running, and the fetch reads the cell that it wrote. -/
theorem fetchSeesStore : Obligations.FetchSeesStore := by
  intro r n s t p hrun hr ha hexec hp
  rw [exec_st_inside hr ha] at hexec
  obtain rfl := Host.Outcome.next.inj hexec
  refine (step_inside ?_ ?_).trans ?_
  · exact hrun
  · exact hp.trans_lt ha
  · rw [Memory.read_write, if_pos hp]

end Sys2Proof.Machine
end

section
/-! The text of a word (60_exceptions.md R241) read back by the loader (20_memory.md R56, 70_reset_and_hazards.md R256):
16 binary digits, no whitespace, the word's own value. -/

namespace Sys2Proof.Machine

/-- Reading `width` digits of a number on from `acc` appends its low `width` bits to those of `acc`. -/
theorem parseDigits_binaryText (width acc n : Nat) :
    parseDigits acc (binaryText width n) = some (acc * 2 ^ width + n % 2 ^ width) := by
  induction width generalizing acc with
  | zero => simp [binaryText, parseDigits, Nat.mod_one]
  | succ width ih =>
    have hdigit : parseDigits acc (binaryText (width + 1) n) =
        parseDigits (2 * acc + (n.testBit width).toNat) (binaryText width n) := by
      cases h : n.testBit width <;> simp [binaryText, parseDigits, digitValue, h]
    rw [hdigit, ih, Nat.pow_succ, Nat.mod_mul, Nat.toNat_testBit]
    congr 1
    ring

theorem parseWord_wordText (w : Word) : parseWord (wordText w) = some w := by
  have hread : parseDigits 0 (wordText w) = some w.toNat := by
    rw [wordText, parseDigits_binaryText, Nat.zero_mul, Nat.zero_add, Nat.mod_eq_of_lt w.isLt]
  rw [parseWord, hread]
  simp only [if_pos w.isLt, BitVec.ofNat_toNat, BitVec.setWidth_eq]

theorem wordText_ne_nil (w : Word) : wordText w ≠ [] := List.cons_ne_nil _ _

theorem binaryText_not_whitespace {width n : Nat} {c : Char} (h : c ∈ binaryText width n) : ¬ c.isWhitespace := by
  induction width with
  | zero => cases h
  | succ width ih =>
    obtain rfl | h := List.mem_cons.mp h
    · cases n.testBit width <;> decide
    · exact ih h

/-- Trimming leaves a line without whitespace alone. -/
theorem trimLine_eq_self {line : List Char} (h : ∀ c ∈ line, ¬ c.isWhitespace) : trimLine line = line := by
  have hleft : line.dropWhile Char.isWhitespace = line :=
    List.dropWhile_eq_self_iff.mpr fun _ => h _ (List.getElem_mem _)
  have hright : line.rdropWhile Char.isWhitespace = line :=
    List.rdropWhile_eq_self_iff.mpr fun hl => h _ (List.getLast_mem hl)
  rw [trimLine, hleft]
  exact hright

theorem trimLine_wordText (w : Word) : trimLine (wordText w) = wordText w :=
  trimLine_eq_self fun _ => binaryText_not_whitespace

/-- Without an empty line nothing is dropped. -/
theorem dropTrailingEmpty_eq_self {lines : List (List Char)} (h : [] ∉ lines) : dropTrailingEmpty lines = lines := by
  refine List.rdropWhile_eq_self_iff.mpr fun hl hempty => h ?_
  rw [← List.isEmpty_iff.mp hempty]
  exact List.getLast_mem hl

/-- Where every line is a program word, none is bad. -/
theorem firstBadLine_eq_none {n : Nat} {lines : List (List Char)} (h : ∀ l ∈ lines, parseWord l ≠ none) :
    firstBadLine n lines = none := by
  induction lines generalizing n with
  | nil => rfl
  | cons line rest ih =>
    obtain ⟨hline, hrest⟩ := List.forall_mem_cons.mp h
    rw [firstBadLine, if_neg fun hbad => hline hbad.2, ih hrest]

/-- Settles O47: the texts are trimmed lines, none of them empty or bad, and each reads back as its word. -/
theorem loadReadsWordText : Obligations.LoadReadsWordText := by
  intro program _
  have htrim : (program.map wordText).map trimLine = program.map wordText := by
    simp [trimLine_wordText]
  have hempty : [] ∉ program.map wordText := by
    simp [wordText_ne_nil]
  have hgood : firstBadLine 1 (program.map wordText) = none :=
    firstBadLine_eq_none (by simp [parseWord_wordText])
  have hwords : (program.map wordText).filterMap parseWord = program := by
    simp [List.filterMap_map, parseWord_wordText]
  rw [load, htrim, dropTrailingEmpty_eq_self hempty]
  simp only [hgood, if_neg hempty, hwords]

end Sys2Proof.Machine
end

section
/-! The opcode map row by row (30_encoding.md R70 to R75, R80, R86): a row reads every word of its opcode by its
format's fields, so that decoding and encoding lose the format's unused bits and nothing else. -/

namespace Sys2Proof

/-! ### A format's fields put together again

The opcode and the fields of a word, with 0 in the unused bits, are the word with those bits cleared: in each format
bits 15:11 are the opcode's, and every bit of 10:0 is a field's or unused. -/

theorem append_fieldsA {op : Opcode} {w : Word} (h : w.extractLsb' 11 5 = op) :
    (op ++ (0#2 ++ field8to6 w ++ field5to3 w ++ field2to0 w) : Word) = w &&& ~~~0x0600 := by
  subst h
  unfold field8to6 field5to3 field2to0
  refine BitVec.eq_of_getLsbD_eq fun j hj => ?_
  simp only [BitVec.getLsbD_append, BitVec.getLsbD_extractLsb', BitVec.getLsbD_and, BitVec.getLsbD_not]
  interval_cases j <;> simp

theorem append_fieldsBD {op : Opcode} {w : Word} (h : w.extractLsb' 11 5 = op) :
    (op ++ (0#1 ++ field9to7 w ++ field6to0 w) : Word) = w &&& ~~~0x0400 := by
  subst h
  unfold field9to7 field6to0
  refine BitVec.eq_of_getLsbD_eq fun j hj => ?_
  simp only [BitVec.getLsbD_append, BitVec.getLsbD_extractLsb', BitVec.getLsbD_and, BitVec.getLsbD_not]
  interval_cases j <;> simp

theorem append_fieldsC {op : Opcode} {w : Word} (h : w.extractLsb' 11 5 = op) :
    (op ++ (0#5 ++ field5to3 w ++ field2to0 w) : Word) = w &&& ~~~0x07C0 := by
  subst h
  unfold field5to3 field2to0
  refine BitVec.eq_of_getLsbD_eq fun j hj => ?_
  simp only [BitVec.getLsbD_append, BitVec.getLsbD_extractLsb', BitVec.getLsbD_and, BitVec.getLsbD_not]
  interval_cases j <;> simp

theorem append_fieldsE {op : Opcode} {w : Word} (h : w.extractLsb' 11 5 = op) :
    (op ++ (0#4 ++ field6to0 w) : Word) = w &&& ~~~0x0780 := by
  subst h
  unfold field6to0
  refine BitVec.eq_of_getLsbD_eq fun j hj => ?_
  simp only [BitVec.getLsbD_append, BitVec.getLsbD_extractLsb', BitVec.getLsbD_and, BitVec.getLsbD_not]
  interval_cases j <;> simp

theorem append_no_fields {op : Opcode} {w : Word} (h : w.extractLsb' 11 5 = op) :
    (op ++ 0#11 : Word) = w &&& ~~~0x07FF := by
  subst h
  refine BitVec.eq_of_getLsbD_eq fun j hj => ?_
  simp only [BitVec.getLsbD_append, BitVec.getLsbD_extractLsb', BitVec.getLsbD_and, BitVec.getLsbD_not]
  interval_cases j <;> simp

/-! ### The rows of the opcode map -/

/-- The bits that `decode` looks at are the opcode's (30_encoding.md R70). -/
theorem opcode_bits {op : Opcode} {w : Word} (h : w.extractLsb' 11 5 = op) :
    w.getLsbD 15 = op.getLsbD 4 ∧ w.getLsbD 14 = op.getLsbD 3 ∧ w.getLsbD 13 = op.getLsbD 2 ∧
      w.getLsbD 12 = op.getLsbD 1 ∧ w.getLsbD 11 = op.getLsbD 0 := by
  subst h
  simp

/-- `read` is the row of the opcode map (30_encoding.md R80) that `i` belongs to: it decodes every word of `i`'s opcode
and reads `i` back from its own word, and its instructions encode to the word read, less the unused bits. -/
structure Row (i : Instr) (read : Word → Instr) : Prop where
  decode_eq : ∀ w : Word, w.extractLsb' 11 5 = i.opcode → decode w = read w
  read_encode : read (encode i) = i
  encode_read : ∀ w : Word, w.extractLsb' 11 5 = i.opcode → encode (read w) = w &&& ~~~i.unusedMask
  unusedMask_read : ∀ w : Word, (read w).unusedMask = i.unusedMask

/-- One case for each format: the format's fields are read back from a word put together, and put a word together. -/
theorem exists_row (i : Instr) : ∃ read, Row i read := by
  cases i with
  | add d a b | sub d a b | mul d a b | xor d a b | or d a b | and d a b | fadd d a b | fsub d a b =>
    exact ⟨formatA _, {
      decode_eq := fun w h => by simp only [decode, opcode_bits h, Instr.opcode, BitVec.reduceGetLsb]
      read_encode := formatA_append _ _ d a b
      encode_read := fun _ => append_fieldsA
      unusedMask_read := fun _ => rfl }⟩
  | movi d n | rs d n | ls d n | setb d n | clrb d n | tglb d n | rol d n | ror d n | movf d n | ld d n | st d n =>
    exact ⟨formatBD _, {
      decode_eq := fun w h => by simp only [decode, opcode_bits h, Instr.opcode, BitVec.reduceGetLsb]
      read_encode := formatBD_append _ _ d n
      encode_read := fun _ => append_fieldsBD
      unusedMask_read := fun _ => rfl }⟩
  | movr a b | div a b | not a b | cmp a b =>
    exact ⟨formatC _, {
      decode_eq := fun w h => by simp only [decode, opcode_bits h, Instr.opcode, BitVec.reduceGetLsb]
      read_encode := formatC_append _ _ a b
      encode_read := fun _ => append_fieldsC
      unusedMask_read := fun _ => rfl }⟩
  | jmp n | jlt n | jgt n | je n =>
    exact ⟨formatE _, {
      decode_eq := fun w h => by simp only [decode, opcode_bits h, Instr.opcode, BitVec.reduceGetLsb]
      read_encode := formatE_append _ _ n
      encode_read := fun _ => append_fieldsE
      unusedMask_read := fun _ => rfl }⟩
  | nop24 | nop25 | nop27 | nop30 | hlt =>
    exact ⟨fun _ => _, {
      decode_eq := fun w h => by simp only [decode, opcode_bits h, Instr.opcode, BitVec.reduceGetLsb]
      read_encode := rfl
      encode_read := fun _ => append_no_fields
      unusedMask_read := fun _ => rfl }⟩

/-- Every opcode is some instruction's (30_encoding.md R80, R83). -/
theorem exists_instr_of_opcode (op : Opcode) : ∃ i : Instr, i.opcode = op :=
  ⟨decode (op ++ 0#11), by revert op; decide⟩

/-- The row of a word, which is the row of every word of its opcode. -/
theorem exists_row_of_word (w : Word) : ∃ i read, w.extractLsb' 11 5 = i.opcode ∧ Row i read := by
  obtain ⟨i, hi⟩ := exists_instr_of_opcode (w.extractLsb' 11 5)
  obtain ⟨read, hrow⟩ := exists_row i
  exact ⟨i, read, hi.symm, hrow⟩

/-- The unused bits of a format are among the bits after the opcode (30_encoding.md R71 to R75). -/
theorem opcode_of_unusedMask (i : Instr) : i.unusedMask.extractLsb' 11 5 = 0 := by
  cases i <;> simp [Instr.unusedMask]

/-! ### Decoding and encoding -/

/-- Settles O3. -/
theorem decodeOfEncode : Obligations.DecodeOfEncode := by
  intro i
  obtain ⟨read, hrow⟩ := exists_row i
  exact (hrow.decode_eq _ (Laws.OpcodeField.of_encode i)).trans hrow.read_encode

/-- Settles O4. -/
theorem encodeOfDecode : Obligations.EncodeOfDecode := by
  intro w
  obtain ⟨i, read, hw, hrow⟩ := exists_row_of_word w
  rw [hrow.decode_eq w hw, hrow.encode_read w hw, hrow.unusedMask_read]

theorem decode_clear_unused (w : Word) : decode (w &&& ~~~(decode w).unusedMask) = decode w := by
  rw [← encodeOfDecode, decodeOfEncode]

/-- Words of one opcode have one format, and so the same unused bits. -/
theorem unusedMask_decode_congr {v w : Word} (h : v.extractLsb' 11 5 = w.extractLsb' 11 5) :
    (decode v).unusedMask = (decode w).unusedMask := by
  obtain ⟨i, read, hw, hrow⟩ := exists_row_of_word w
  rw [hrow.decode_eq v (h.trans hw), hrow.decode_eq w hw, hrow.unusedMask_read, hrow.unusedMask_read]

/-- Words of one opcode that agree on the bits their format uses decode alike. -/
theorem decode_congr_used {v w : Word} (hop : v.extractLsb' 11 5 = w.extractLsb' 11 5)
    (hused : v &&& ~~~(decode w).unusedMask = w &&& ~~~(decode w).unusedMask) : decode v = decode w := by
  calc decode v = decode (v &&& ~~~(decode v).unusedMask) := (decode_clear_unused v).symm
    _ = decode (w &&& ~~~(decode w).unusedMask) := by rw [unusedMask_decode_congr hop, hused]
    _ = decode w := decode_clear_unused w

/-- Settles O5: the change touches neither the opcode nor a bit that the format uses. -/
theorem unusedBitsAreIgnored : Obligations.UnusedBitsAreIgnored := by
  intro w u
  apply decode_congr_used
  · simp [BitVec.extractLsb'_xor, BitVec.extractLsb'_and, opcode_of_unusedMask]
  · ext k
    cases hk : (decode w).unusedMask[k] <;> simp [hk]

/-- Settles O2. -/
theorem specWordsDecode : Obligations.SpecWordsDecode := by
  unfold Obligations.SpecWordsDecode
  decide

end Sys2Proof
end

section
/-! Existing operands (30_encoding.md R76, R77, R83): what a register field names, and that no fault has a cause. -/

namespace Sys2Proof.Machine

/-- Settles O1. -/
theorem registerFieldsNameRegisters : Obligations.RegisterFieldsNameRegisters :=
  ⟨by decide, fun _ => reg_of_ne_seven, reg_seven⟩

/-- A well-formed instruction whose address, if it has one, is inside memory has no cause of a fault. -/
theorem FaultCause.not_of_wellFormed {i : Instr} {s : State} {k : FaultKind} (hwf : i.wellFormed = true)
    (haddr : ∀ d n, i = .ld d n ∨ i = .st d n → n.toNat + s.ic < 256) : ¬ FaultCause i s k := by
  simp only [Instr.wellFormed, Bool.and_eq_true, List.all_eq_true, Option.all_eq_true, decide_eq_true_eq] at hwf
  obtain ⟨hfields, hcount⟩ := hwf
  intro hcause
  cases hcause with
  | field p hmem => exact absurd (hfields _ hmem) (by simp)
  | count n hn hlt => exact absurd (hcount n hn) (Nat.not_le.mpr hlt)
  | load d n hi ha => exact absurd (haddr d n (.inl hi)) (Nat.not_lt.mpr ha)
  | store d n hi ha => exact absurd (haddr d n (.inr hi)) (Nat.not_lt.mpr ha)

/-- Settles O36: of an instruction's effects only a fault touches the fault record, and a fault has a cause. -/
theorem existingOperandsNeverFault : Obligations.ExistingOperandsNeverFault := by
  intro i s hwf haddr
  obtain ⟨t, ht, he⟩ := exec_effect i s
  refine ⟨t, ht, ?_⟩
  cases he with
  | fault k hcause => exact absurd hcause (FaultCause.not_of_wellFormed hwf haddr)
  | halt | store | regs | jump => rfl

end Sys2Proof.Machine
end

section
/-! ADD, SUB, MUL and DIV (41_arithmetic.md R100 to R104): the ends they share, what each computes for registers that
exist, and the fault for those that do not. -/

namespace Sys2Proof.Machine

/-! ### ADD, SUB and MUL -/

theorem arithEnd_pc (s : State) (d : RegId) (r : Option Word) : (s.arithEnd false d r).pc = s.pc + 1 := by
  obtain ⟨rf, h⟩ := arithEnd_shape s false d r
  rw [h]

theorem arithEnd_frame (s : State) (d : RegId) (r : Option Word) : Frame [d, .flags] s (s.arithEnd false d r) := by
  cases r with
  | some v => exact writeBack_frame s d v
  | none => exact overflow_frame s d

/-- The two ends of an operation whose exact result `n` is given up on overflow: 0 with OV set beside the old flags, and
`n` with FLAGS cleared. -/
theorem arithEnd_result {d : RegField} {overflow : Prop} [Decidable overflow] {n : Nat} {r : Option Word} (s : State)
    (hd : d ≠ 7) (hr : r = if overflow then none else some (BitVec.ofNat 16 n)) (hfit : ¬ overflow → n < 2 ^ 16) :
    if overflow
    then (s.arithEnd false (regm d) r).x d = 0 ∧ (s.arithEnd false (regm d) r).regs.flags = s.regs.flags ||| 0b1000
    else ((s.arithEnd false (regm d) r).x d).toNat = n ∧ (s.arithEnd false (regm d) r).regs.flags = 0 := by
  subst hr
  by_cases h : overflow
  · simp only [if_pos h]
    exact ⟨overflow_x s d, overflow_flags s hd⟩
  · simp only [if_neg h, State.arithEnd, writeBack_x, BitVec.toNat_ofNat, Nat.mod_eq_of_lt (hfit h), true_and]
    exact writeBack_flags s _ hd

/-- A format-A instruction that ends by `arithEnd` with the result of `op` does, with registers that exist, what R100,
R101 and R102 say of theirs. -/
theorem exec_arith {i : Instr} {d a b : RegField} {s : State} {op : Word → Word → Option Word} {overflow : Prop}
    [Decidable overflow] {n : Nat}
    (hexec : exec i s = withRegsA d a b s fun d s1 s2 => s.arithEnd false d (op (s.getReg s1) (s.getReg s2)))
    (hop : op (s.x a) (s.x b) = if overflow then none else some (BitVec.ofNat 16 n))
    (hfit : ¬ overflow → n < 2 ^ 16) (hd : d ≠ 7) (ha : a ≠ 7) (hb : b ≠ 7) :
    ∃ t, exec i s = .next t ∧ t.pc = s.pc + 1 ∧ Frame [regm d, .flags] s t ∧
      if overflow
      then t.x d = 0 ∧ t.regs.flags = s.regs.flags ||| 0b1000
      else (t.x d).toNat = n ∧ t.regs.flags = 0 :=
  ⟨_, hexec.trans (withRegsA_valid hd ha hb), arithEnd_pc s _ _, arithEnd_frame s _ _, arithEnd_result s hd hop hfit⟩

/-! ### DIV -/

theorem divEnd_pc (s : State) (r : Option (Word × Word)) : (s.divEnd r).pc = s.pc + 1 := by
  obtain ⟨rf, h⟩ := divEnd_shape s r
  rw [h]

theorem divEnd_getReg_of_ne (s : State) (r : Option (Word × Word)) {q : RegId} (h0 : q ≠ .r0) (h1 : q ≠ .r1)
    (hf : q ≠ .flags) : (s.divEnd r).getReg q = s.getReg q := by
  cases r with
  | some qm =>
    simp only [State.divEnd, State.advance_getReg, State.getReg_setReg, State.getReg_resetFlags, if_neg h0, if_neg h1,
      if_neg hf]
  | none =>
    simp only [State.divEnd, State.advance_getReg, State.getReg_setReg, State.getReg_setFlag, if_neg h0, if_neg h1,
      if_neg hf]

theorem divEnd_frame (s : State) (r : Option (Word × Word)) : Frame [.r0, .r1, .flags] s (s.divEnd r) where
  regs q hq := by
    simp only [List.mem_cons, List.not_mem_nil, or_false, not_or] at hq
    obtain ⟨h0, h1, hf⟩ := hq
    exact divEnd_getReg_of_ne s r h0 h1 hf
  mem _ := by cases r <;> rfl
  halted := by cases r <;> rfl
  fault := by cases r <;> rfl
  ic := by cases r <;> rfl

theorem divEnd_zero (s : State) :
    (s.divEnd none).getReg .r0 = 0 ∧ (s.divEnd none).getReg .r1 = 0 ∧
      (s.divEnd none).regs.flags = s.regs.flags ||| 0b1000 := ⟨rfl, rfl, rfl⟩

theorem divEnd_some (s : State) (q m : Word) :
    (s.divEnd (some (q, m))).getReg .r0 = q ∧ (s.divEnd (some (q, m))).getReg .r1 = m ∧
      (s.divEnd (some (q, m))).regs.flags = 0 := ⟨rfl, rfl, rfl⟩

theorem divResult_zero {x y : Word} (h : y.toNat = 0) : divResult x y = none := if_pos h

/-- Quotient and remainder are no larger than the dividend, so that they are words (41_arithmetic.md R104). -/
theorem divResult_nonzero {x y : Word} (h : y.toNat ≠ 0) :
    ∃ q m, divResult x y = some (q, m) ∧ q.toNat = x.toNat / y.toNat ∧ m.toNat = x.toNat % y.toNat := by
  have hq : x.toNat / y.toNat < 2 ^ 16 := (Nat.div_le_self _ _).trans_lt x.isLt
  have hm : x.toNat % y.toNat < 2 ^ 16 := (Nat.mod_le _ _).trans_lt x.isLt
  refine ⟨_, _, if_neg h, ?_, ?_⟩
  · rw [BitVec.toNat_ofNat, Nat.mod_eq_of_lt hq]
  · rw [BitVec.toNat_ofNat, Nat.mod_eq_of_lt hm]

theorem exec_div {a b : RegField} (s : State) (ha : a ≠ 7) (hb : b ≠ 7) :
    exec (.div a b) s = .next (s.divEnd (divResult (s.x a) (s.x b))) := by
  change execDiv a b s = _
  rw [execDiv, withRegsC_valid ha hb]
  rfl

end Sys2Proof.Machine
end

section
/-! The results of the four arithmetic instructions, settled. The namespace keeps their names apart from the model's
`addResult`, `subResult`, `mulResult` and `divResult`. -/

namespace Sys2Proof.Arithmetic

open Sys2Proof.Machine

/-- Settles O11: the sum is given up exactly where it exceeds 65535. -/
theorem addResult : Obligations.AddResult := fun _ _ _ _ =>
  ⟨exec_arith (op := Machine.addResult) rfl rfl (by omega), registerFaults_A rfl⟩

/-- Settles O12: a difference that does not underflow is at most the minuend. -/
theorem subResult : Obligations.SubResult := fun _ a _ s =>
  ⟨exec_arith (op := Machine.subResult) rfl rfl fun _ => (Nat.sub_le _ _).trans_lt (s.x a).isLt, registerFaults_A rfl⟩

/-- Settles O13: the product is given up exactly where it exceeds 65535. -/
theorem mulResult : Obligations.MulResult := fun _ _ _ _ =>
  ⟨exec_arith (op := Machine.mulResult) rfl rfl (by omega), registerFaults_A rfl⟩

/-- Settles O14: by the divisor, which is 0 or not. -/
theorem divResult : Obligations.DivResult := by
  refine fun a b s => ⟨fun ha hb => ⟨_, exec_div s ha hb, divEnd_pc s _, divEnd_frame s _, ?_⟩, registerFaults_C rfl⟩
  by_cases h : (s.x b).toNat = 0
  · rw [if_pos h, divResult_zero h]
    exact divEnd_zero s
  · obtain ⟨q, m, hqm, hq, hm⟩ := divResult_nonzero (x := s.x a) h
    obtain ⟨h0, h1, hf⟩ := divEnd_some s q m
    rw [if_neg h, hqm, h0, h1]
    exact ⟨hq, hm, hf⟩

/-- Settles O16: the law of `Nat` division, for the quotient and the remainder of `divResult`. -/
theorem divisionLaw : Obligations.DivisionLaw := by
  intro a b s t ha hb hdivisor hexec
  obtain ⟨t', ht', -, -, hresult⟩ := (divResult a b s).1 ha hb
  obtain rfl : t = t' := Host.Outcome.next.inj (hexec.symm.trans ht')
  have h : (s.x b).toNat ≠ 0 := fun h0 => hdivisor (BitVec.eq_of_toNat_eq h0)
  rw [if_neg h] at hresult
  obtain ⟨hq, hm, -⟩ := hresult
  rw [hq, hm]
  exact ⟨(Nat.div_add_mod' _ _).symm, Nat.mod_lt _ (Nat.pos_of_ne_zero h)⟩

end Sys2Proof.Arithmetic
end

section
/-! MOVI, MOVR, LD and ST (42_move_memory.md R120 to R124): what each answers for fields and addresses that exist, the
faults for those that do not, and the load that follows a store. -/

namespace Sys2Proof.Machine

theorem zextImm_toNat (n : Imm) : (zextImm n).toNat = n.toNat := BitVec.toNat_setWidth_of_le (by decide)

theorem exec_movi {d : RegField} (n : Imm) (s : State) (hd : d ≠ 7) :
    exec (.movi d n) s = .next (s.writeBack (regm d) (zextImm n)) := withRegBD_valid hd

theorem exec_movr (d a : RegField) (s : State) : exec (.movr d a) s = .next (s.writeBack (regm d) (s.x a)) := rfl

/-- LD to an existing register from a cell inside memory (42_move_memory.md R122). -/
theorem exec_ld_inside {d : RegField} {n : Addr} {s : State} (hd : d ≠ 7) (ha : n.toNat + s.ic < 256) :
    exec (.ld d n) s = .next (s.writeBack (regm d) (s.mem.read (n.toNat + s.ic))) := by
  change execLd d n s = _
  rw [execLd, withRegBD_valid hd, effectiveAddress, memRead_inside ha]

/-- LD to an existing register from an address outside memory (42_move_memory.md R124). -/
theorem exec_ld_outside {d : RegField} {n : Addr} {s : State} (hd : d ≠ 7) (ha : 256 ≤ n.toNat + s.ic) :
    exec (.ld d n) s = .next (s.faultedWith (.memoryFault (n.toNat + s.ic))) := by
  change execLd d n s = _
  rw [execLd, withRegBD_valid hd, effectiveAddress, memRead_outside ha, raise_eq_faultedWith]

/-- ST of an existing register to an address outside memory (42_move_memory.md R124). -/
theorem exec_st_outside {r : RegField} {n : Addr} {s : State} (hr : r ≠ 7) (ha : 256 ≤ n.toNat + s.ic) :
    exec (.st r n) s = .next (s.faultedWith (.memoryFault (n.toNat + s.ic))) := by
  change execSt r n s = _
  rw [execSt, withRegBD_valid hr, effectiveAddress, memWrite_outside ha, raise_eq_faultedWith]

/-- Settles O17: zero extension keeps the immediate's value. -/
theorem moviResult : Obligations.MoviResult := by
  refine fun d n s => ⟨fun hd => ⟨_, exec_movi n s hd, rfl, writeBack_frame s _ _, ?_, writeBack_flags s _ hd⟩,
    registerFaults_BD rfl⟩
  rw [writeBack_x, zextImm_toNat]

/-- Settles O18: the destination is written after the reset of FLAGS, with what the source held before it. -/
theorem movrResult : Obligations.MovrResult := fun d a s =>
  ⟨_, exec_movr d a s, rfl, writeBack_frame s _ _, writeBack_x s d _, writeBack_flags s _⟩

/-- Settles O19: the register field is checked first, then the address, which is inside memory or not. -/
theorem ldResult : Obligations.LdResult := fun d _ s =>
  ⟨fun hd ha => ⟨_, exec_ld_inside hd ha, rfl, writeBack_frame s _ _, writeBack_x s d _, writeBack_flags s _ hd⟩,
    exec_ld_outside, registerFaults_BD rfl⟩

/-- Settles O20: inside memory the registers change in FLAGS alone and the memory in the stored cell alone. -/
theorem stResult : Obligations.StResult := by
  refine fun r n s => ⟨rfl, fun hr ha => ⟨_, exec_st_inside hr ha, rfl, ?registers, rfl, rfl, rfl, rfl, ?cells⟩,
    exec_st_outside, registerFaults_BD rfl⟩
  case registers => exact fun q hq => RegFile.get_set_ne s.regs 0 hq
  case cells =>
    intro a
    rw [Memory.read_write, effectiveAddress]
    split <;> rfl

/-- Settles O21: ST keeps IC, so that LD reads the cell that it wrote. -/
theorem storeThenLoad : Obligations.StoreThenLoad := by
  intro r d n s t hr hd ha hexec
  rw [exec_st_inside hr ha] at hexec
  obtain rfl := Host.Outcome.next.inj hexec
  refine ⟨_, exec_ld_inside hd ha, ?_⟩
  rw [writeBack_x, Memory.read_write, if_pos rfl]

end Sys2Proof.Machine
end

section
/-! RS, LS, XOR, OR, AND and NOT (43_shift_logic.md R140 to R145): what each answers for registers that exist, and the
fault for those that do not. -/

namespace Sys2Proof.Machine

/-! ### The values that the shifts compute -/

theorem shiftRight_toNat (x : Word) (n : Imm) : (shiftRight x n).toNat = x.toNat / 2 ^ n.toNat := by
  rw [shiftRight, BitVec.toNat_ushiftRight, Nat.shiftRight_eq_div_pow]

theorem shiftLeft_toNat (x : Word) (n : Imm) : (shiftLeft x n).toNat = x.toNat * 2 ^ n.toNat % 2 ^ 16 := by
  rw [shiftLeft, BitVec.toNat_shiftLeft, Nat.shiftLeft_eq]

/-! ### What the instructions answer -/

theorem exec_rs {d : RegField} (n : Imm) (s : State) (hd : d ≠ 7) :
    exec (.rs d n) s = .next (s.writeBack (regm d) (shiftRight (s.x d) n)) := withRegBD_valid hd

theorem exec_ls {d : RegField} (n : Imm) (s : State) (hd : d ≠ 7) :
    exec (.ls d n) s = .next (s.writeBack (regm d) (shiftLeft (s.x d) n)) := withRegBD_valid hd

theorem exec_not {d a : RegField} (s : State) (hd : d ≠ 7) (ha : a ≠ 7) :
    exec (.not d a) s = .next (s.writeBack (regm d) (~~~(s.x a))) := withRegsC_valid hd ha

/-- An instruction that ends by writing back a word of known value completes with that value in its destination. -/
theorem exec_writeBack_number {i : Instr} {d : RegField} {s : State} {v : Word} {n : Nat}
    (hexec : exec i s = .next (s.writeBack (regm d) v)) (hv : v.toNat = n) (hd : d ≠ 7) :
    ∃ t, exec i s = .next t ∧ t.pc = s.pc + 1 ∧ Frame [regm d, .flags] s t ∧ (t.x d).toNat = n ∧ t.regs.flags = 0 :=
  ⟨_, hexec, rfl, writeBack_frame s _ v, (congrArg BitVec.toNat (writeBack_x s d v)).trans hv, writeBack_flags s v hd⟩

/-- A format-A instruction that writes back what `op` makes of its sources, where `op` works bit by bit as `bit` does,
completes with `bit` of the sources' bits (R142 to R144). -/
theorem exec_bitwise {i : Instr} {d a b : RegField} {s : State} {op : Word → Word → Word} {bit : Bool → Bool → Bool}
    (hexec : exec i s = withRegsA d a b s fun d s1 s2 => s.writeBack d (op (s.getReg s1) (s.getReg s2)))
    (hop : ∀ x y j, (op x y).getLsbD j = bit (x.getLsbD j) (y.getLsbD j)) (hd : d ≠ 7) (ha : a ≠ 7) (hb : b ≠ 7) :
    ∃ t, exec i s = .next t ∧ t.pc = s.pc + 1 ∧ Frame [regm d, .flags] s t ∧ t.regs.flags = 0 ∧
      ∀ j, (t.x d).getLsbD j = bit ((s.x a).getLsbD j) ((s.x b).getLsbD j) := by
  refine ⟨_, hexec.trans (withRegsA_valid hd ha hb), rfl, writeBack_frame s _ _, writeBack_flags s _ hd, fun j => ?_⟩
  rw [writeBack_x]
  exact hop (s.x a) (s.x b) j

/-! ### The obligations -/

/-- Settles O23: a shift by `n` divides or multiplies by `2 ^ n`, the product cut to 16 bits. -/
theorem shiftResults : Obligations.ShiftResults := fun d n s =>
  ⟨fun hd =>
    ⟨exec_writeBack_number (exec_rs n s hd) (shiftRight_toNat (s.x d) n) hd,
      exec_writeBack_number (exec_ls n s hd) (shiftLeft_toNat (s.x d) n) hd⟩,
    fun h7 => ⟨registerFaults_BD rfl h7, registerFaults_BD rfl h7⟩⟩

/-- Settles O24: each of the three operations works bit by bit. -/
theorem logicResults : Obligations.LogicResults := fun _ _ _ _ =>
  ⟨fun hd ha hb =>
    ⟨exec_bitwise rfl (fun _ _ _ => BitVec.getLsbD_xor) hd ha hb,
      exec_bitwise rfl (fun _ _ _ => BitVec.getLsbD_or) hd ha hb,
      exec_bitwise rfl (fun _ _ _ => BitVec.getLsbD_and) hd ha hb⟩,
    fun h7 => ⟨registerFaults_A rfl h7, registerFaults_A rfl h7, registerFaults_A rfl h7⟩⟩

/-- Settles O25: inverting all 16 bits is subtracting from 65535. -/
theorem notResult : Obligations.NotResult := fun _ _ s =>
  ⟨fun hd ha => exec_writeBack_number (exec_not s hd ha) BitVec.toNat_not hd, registerFaults_C rfl⟩

end Sys2Proof.Machine
end

section
/-! CMP, JMP, JLT, JGT and JE (44_compare_jump.md R160 to R165): what each answers, and the words that decode to a jump,
whatever its unused bits. -/

namespace Sys2Proof

/-! ### The words of format E -/

/-- A word with an instruction's opcode, and its fields on the bits that its format uses, decodes to it (30_encoding.md
R79, R85). -/
theorem decode_eq_of_used {i : Instr} {w : Word} (hop : w.extractLsb' 11 5 = i.opcode)
    (hused : w &&& ~~~i.unusedMask = encode i &&& ~~~i.unusedMask) : decode w = i := by
  have hi : decode (encode i) = i := decodeOfEncode i
  rw [← hi]
  apply decode_congr_used
  · exact hop.trans (Laws.OpcodeField.of_encode i).symm
  · rw [hi]
    exact hused

/-- Bits 10:7 of a format-E word do not matter (30_encoding.md R75, R79). -/
theorem decode_formatE {i : Instr} {n : Addr} (hbits : i.operandBits = 0#4 ++ n) (hmask : i.unusedMask = 0x0780)
    (u : BitVec 4) : decode (i.opcode ++ u ++ n) = i := by
  apply decode_eq_of_used
  · refine BitVec.eq_of_getLsbD_eq fun j hj => ?_
    simp only [BitVec.getLsbD_extractLsb', BitVec.getLsbD_append]
    interval_cases j <;> simp
  · rw [encode, hbits, hmask]
    refine BitVec.eq_of_getLsbD_eq fun j hj => ?_
    simp only [BitVec.getLsbD_append, BitVec.getLsbD_and, BitVec.getLsbD_not]
    interval_cases j <;> simp

end Sys2Proof

namespace Sys2Proof.Machine

/-! ### What the instructions answer -/

theorem exec_cmp {a b : RegField} (s : State) (ha : a ≠ 7) (hb : b ≠ 7) :
    exec (.cmp a b) s = .next { s with
      regs := s.regs.set .flags (s.regs.flags ||| compareMask (s.x a) (s.x b)), pc := s.pc + 1 } :=
  withRegsC_valid ha hb

theorem exec_jmp (n : Addr) (s : State) :
    exec (.jmp n) s = .next { s with regs := s.regs.set .flags 0, pc := jumpTarget n } := rfl

theorem jumpIf_frame (s : State) (m : Word) (n : Addr) : Frame [.flags] s (s.jumpIf m n) := by
  rw [jumpIf_eq]
  exact flags_frame s 0 _

theorem jumpIf_flags (s : State) (m : Word) (n : Addr) : (s.jumpIf m n).regs.flags = 0 := by
  rw [jumpIf_eq]
  rfl

/-- The flag is the one that stood before the reset of FLAGS. -/
theorem jumpIf_pc (s : State) (m : Word) (n : Addr) :
    if s.regs.flags &&& m ≠ 0 then (s.jumpIf m n).pc.toNat = n.toNat else (s.jumpIf m n).pc = s.pc + 1 := by
  rw [jumpIf_eq, getFlag]
  split
  · next h => rw [if_pos (bne_iff_ne.mpr h), jumpTarget_toNat]
  · next h => rw [if_neg (mt bne_iff_ne.mp h)]

/-- An instruction that ends by `jumpIf` with its flag's mask does what R162 to R164 say of theirs. -/
theorem exec_jumpIf {i : Instr} {s : State} {m : Word} {n : Addr} (hexec : exec i s = .next (s.jumpIf m n)) :
    ∃ t, exec i s = .next t ∧ Frame [.flags] s t ∧ t.regs.flags = 0 ∧
      if s.regs.flags &&& m ≠ 0 then t.pc.toNat = n.toNat else t.pc = s.pc + 1 :=
  ⟨_, hexec, jumpIf_frame s m n, jumpIf_flags s m n, jumpIf_pc s m n⟩

/-! ### The obligations -/

/-- Settles O29: the flag that is or-ed in is `compareMask`'s, and only FLAGS is written. -/
theorem cmpResult : Obligations.CmpResult := fun _ _ s =>
  ⟨fun ha hb => ⟨_, exec_cmp s ha hb, rfl, flags_frame s _ _, rfl⟩, registerFaults_C rfl⟩

/-- Settles O31: the three jumps differ in their opcode and in the flag they read. -/
theorem conditionalJumpResults : Obligations.ConditionalJumpResults := fun n _ =>
  ⟨fun u => ⟨decode_formatE (i := .jlt n) rfl rfl u, decode_formatE (i := .jgt n) rfl rfl u,
      decode_formatE (i := .je n) rfl rfl u⟩,
    exec_jumpIf (m := maskLT) rfl, exec_jumpIf (m := maskGT) rfl, exec_jumpIf (m := maskEQ) rfl⟩

/-- Settles O30. -/
theorem jmpResult : Obligations.JmpResult := fun n s =>
  ⟨⟨_, exec_jmp n s, jumpTarget_toNat n, flags_frame s _ _, rfl⟩, decode_formatE (i := .jmp n) rfl rfl⟩

end Sys2Proof.Machine
end

section
/-! FADD, FSUB and MOVF (45_reserved_float.md R180 to R183): each answers the advanced state. FLOAT_CHECKS_REGS is
false, so that none looks at its register fields (decision D9, log 16). -/

namespace Sys2Proof.Machine

theorem exec_fadd (d a b : RegField) (s : State) : exec (.fadd d a b) s = .next s.advance := rfl

theorem exec_fsub (d a b : RegField) (s : State) : exec (.fsub d a b) s = .next s.advance := rfl

theorem exec_movf (d : RegField) (n : Imm) (s : State) : exec (.movf d n) s = .next s.advance := rfl

/-- Settles O32: advancing is the pc's increment and nothing else. -/
theorem floatOpcodesOnlyAdvance : Obligations.FloatOpcodesOnlyAdvance := fun d a b n s =>
  ⟨exec_fadd d a b s, exec_fsub d a b s, exec_movf d n s⟩

end Sys2Proof.Machine
end

section
/-! SETB, CLRB, TGLB, ROL and ROR (46_bit_rotate.md R190 to R194): the bits of what each computes, what each answers for
a register that exists and a count that is allowed, and the faults for those that are not. -/

namespace Sys2Proof.Machine

/-! ### The bits that are computed -/

/-- Shifted out of the word, the mask's bit is at no place. -/
theorem bitMask_getLsbD {n : Imm} {j : Nat} (hj : j < 16) : (bitMask n).getLsbD j = decide (j = n.toNat) := by
  rw [bitMask, ← BitVec.twoPow_eq, BitVec.getLsbD_twoPow]
  by_cases h : j = n.toNat
  · simp [← h, hj]
  · simp [h, Ne.symm h]

theorem setBit_getLsbD (x : Word) (n : Imm) {j : Nat} (hj : j < 16) :
    (setBit x n).getLsbD j = if j = n.toNat then true else x.getLsbD j := by
  rw [setBit, BitVec.getLsbD_or, bitMask_getLsbD hj]
  split <;> simp [*]

theorem clearBit_getLsbD (x : Word) (n : Imm) {j : Nat} (hj : j < 16) :
    (clearBit x n).getLsbD j = if j = n.toNat then false else x.getLsbD j := by
  rw [clearBit, BitVec.getLsbD_and, BitVec.getLsbD_not, bitMask_getLsbD hj]
  split <;> simp [*]

theorem toggleBit_getLsbD (x : Word) (n : Imm) {j : Nat} (hj : j < 16) :
    (toggleBit x n).getLsbD j = if j = n.toNat then !x.getLsbD j else x.getLsbD j := by
  rw [toggleBit, BitVec.getLsbD_xor, bitMask_getLsbD hj]
  split <;> simp [*]

/-- Bit `j` comes from the shift to the left, or, where it wraps around, from the shift to the right. -/
theorem rotateLeft_getLsbD (x : Word) {n : Imm} {j : Nat} (hn : n.toNat ≤ 16) (hj : j < 16) :
    (rotateLeft x n).getLsbD ((j + n.toNat) % 16) = x.getLsbD j := by
  rw [rotateLeft, BitVec.getLsbD_or, BitVec.getLsbD_shiftLeft, BitVec.getLsbD_ushiftRight]
  by_cases hwrap : j + n.toNat < 16
  · have hout : 16 ≤ 16 - n.toNat + (j + n.toNat) := by omega
    rw [Nat.mod_eq_of_lt hwrap, BitVec.getLsbD_of_ge _ _ hout]
    simp [hwrap]
  · have hmod : (j + n.toNat) % 16 = j + n.toNat - 16 := by omega
    have hlow : j + n.toNat - 16 < n.toNat := by omega
    have hin : 16 - n.toNat + (j + n.toNat - 16) = j := by omega
    simp [hmod, hlow, hin]

/-- Bit `j` comes from the shift to the right, or, where it wraps around, from the shift to the left. -/
theorem rotateRight_getLsbD (x : Word) {n : Imm} {j : Nat} (hn : n.toNat ≤ 16) (hj : j < 16) :
    (rotateRight x n).getLsbD j = x.getLsbD ((j + n.toNat) % 16) := by
  rw [rotateRight, BitVec.getLsbD_or, BitVec.getLsbD_ushiftRight, BitVec.getLsbD_shiftLeft]
  by_cases hwrap : j + n.toNat < 16
  · have hlow : j < 16 - n.toNat := by omega
    simp [Nat.mod_eq_of_lt hwrap, hlow, Nat.add_comm]
  · have hmod : (j + n.toNat) % 16 = j - (16 - n.toNat) := by omega
    have hout : 16 ≤ n.toNat + j := by omega
    have hlow : ¬ j < 16 - n.toNat := by omega
    rw [hmod, BitVec.getLsbD_of_ge _ _ hout]
    simp [hj, hlow]

/-! ### What the instructions answer -/

theorem exec_setb {d : RegField} (n : Imm) (s : State) (hd : d ≠ 7) :
    exec (.setb d n) s = .next (s.writeBack (regm d) (setBit (s.x d) n)) := withRegBD_valid hd

theorem exec_clrb {d : RegField} (n : Imm) (s : State) (hd : d ≠ 7) :
    exec (.clrb d n) s = .next (s.writeBack (regm d) (clearBit (s.x d) n)) := withRegBD_valid hd

theorem exec_tglb {d : RegField} (n : Imm) (s : State) (hd : d ≠ 7) :
    exec (.tglb d n) s = .next (s.writeBack (regm d) (toggleBit (s.x d) n)) := withRegBD_valid hd

theorem withRotateCount_allowed {n : Imm} {s t : State} (hn : n.toNat ≤ 16) : withRotateCount n s t = .next t :=
  if_neg (Nat.not_lt.mpr hn)

theorem withRotateCount_above {n : Imm} {s t : State} (hn : 16 < n.toNat) :
    withRotateCount n s t = .next (s.faultedWith (.shiftCountFault n)) := if_pos hn

theorem exec_rol {d : RegField} {n : Imm} (s : State) (hd : d ≠ 7) (hn : n.toNat ≤ 16) :
    exec (.rol d n) s = .next (s.writeBack (regm d) (rotateLeft (s.x d) n)) :=
  (withRegBD_valid hd).trans (withRotateCount_allowed hn)

theorem exec_ror {d : RegField} {n : Imm} (s : State) (hd : d ≠ 7) (hn : n.toNat ≤ 16) :
    exec (.ror d n) s = .next (s.writeBack (regm d) (rotateRight (s.x d) n)) :=
  (withRegBD_valid hd).trans (withRotateCount_allowed hn)

/-- An instruction that checks a register field and then a rotate count faults on a count above 16 (decision D7). -/
theorem exec_count_above {i : Instr} {d : RegField} {n : Imm} {s : State} {k : RegId → State}
    (hexec : exec i s = withRegBD d s fun r => withRotateCount n s (k r)) (hd : d ≠ 7) (hn : 16 < n.toNat) :
    exec i s = .next (s.faultedWith (.shiftCountFault n)) :=
  hexec.trans ((withRegBD_valid hd).trans (withRotateCount_above hn))

/-- An instruction that ends by writing back a word completes with that word's bits in its destination. -/
theorem exec_writeBack_bits {i : Instr} {d : RegField} {s : State} {v : Word} {place : Nat → Nat} {bit : Nat → Bool}
    (hexec : exec i s = .next (s.writeBack (regm d) v)) (hv : ∀ j, j < 16 → v.getLsbD (place j) = bit j) (hd : d ≠ 7) :
    ∃ t, exec i s = .next t ∧ t.pc = s.pc + 1 ∧ Frame [regm d, .flags] s t ∧ t.regs.flags = 0 ∧
      ∀ j, j < 16 → (t.x d).getLsbD (place j) = bit j := by
  refine ⟨_, hexec, rfl, writeBack_frame s _ v, writeBack_flags s v hd, ?_⟩
  rw [writeBack_x]
  exact hv

/-! ### The obligations -/

/-- Settles O26: the mask has bit `n` alone, and no bit of the word where `n` is 16 or more. -/
theorem bitResults : Obligations.BitResults := fun d n s =>
  ⟨fun hd =>
    ⟨exec_writeBack_bits (exec_setb n s hd) (fun _ => setBit_getLsbD (s.x d) n) hd,
      exec_writeBack_bits (exec_clrb n s hd) (fun _ => clearBit_getLsbD (s.x d) n) hd,
      exec_writeBack_bits (exec_tglb n s hd) (fun _ => toggleBit_getLsbD (s.x d) n) hd⟩,
    fun h7 => ⟨registerFaults_BD rfl h7, registerFaults_BD rfl h7, registerFaults_BD rfl h7⟩⟩

/-- Settles O27: the register field is checked first, then the count. -/
theorem rotateResults : Obligations.RotateResults := fun d _ s =>
  ⟨fun hd hn =>
    ⟨exec_writeBack_bits (exec_rol s hd hn) (fun _ => rotateLeft_getLsbD (s.x d) hn) hd,
      exec_writeBack_bits (exec_ror s hd hn) (fun _ => rotateRight_getLsbD (s.x d) hn) hd⟩,
    fun hd hn => ⟨exec_count_above rfl hd hn, exec_count_above rfl hd hn⟩,
    fun h7 => ⟨registerFaults_BD rfl h7, registerFaults_BD rfl h7⟩⟩

/-- Settles O28: ROR takes bit `j` from the place to which ROL moved it. -/
theorem rotateRoundTrip : Obligations.RotateRoundTrip := by
  intro d n s t hd hn hexec
  obtain ⟨⟨t', ht', -, -, -, hleft⟩, -⟩ := (rotateResults d n s).1 hd hn
  obtain ⟨-, u, hu, -, -, -, hright⟩ := (rotateResults d n t).1 hd hn
  obtain rfl : t = t' := Host.Outcome.next.inj (hexec.symm.trans ht')
  exact ⟨u, hu, BitVec.eq_of_getLsbD_eq fun j hj => (hright j hj).trans (hleft j hj)⟩

end Sys2Proof.Machine
end

section
/-! HLT and the four opcodes without a meaning (47_halt_noop.md R210, R211): what each answers, that a halted state takes
no step, and the words that decode to each, whatever its unused bits. -/

namespace Sys2Proof

/-! ### The words of format N -/

/-- Bits 10:0 of a format-N word do not matter (30_encoding.md R75, R79): cleared, any two words of one opcode are the
same. -/
theorem decode_formatN {i : Instr} (hmask : i.unusedMask = 0x07FF) (low : BitVec 11) :
    decode (i.opcode ++ low) = i := by
  have hop : (i.opcode ++ low : Word).extractLsb' 11 5 = i.opcode := BitVec.extractLsb'_append_eq_left
  apply decode_eq_of_used hop
  rw [hmask]
  exact (append_no_fields hop).symm.trans (append_no_fields (Laws.OpcodeField.of_encode i))

end Sys2Proof

namespace Sys2Proof.Machine

/-! ### What the instructions answer -/

theorem exec_nop24 (s : State) : exec .nop24 s = .next s.advance := rfl

theorem exec_nop25 (s : State) : exec .nop25 s = .next s.advance := rfl

theorem exec_nop27 (s : State) : exec .nop27 s = .next s.advance := rfl

theorem exec_nop30 (s : State) : exec .nop30 s = .next s.advance := rfl

theorem exec_hlt (s : State) : exec .hlt s = .next { s with halted := true } := rfl

/-- No step is taken from a halted state (00_scope.md R10, 10_state.md R34), and the answer says so (log 1). -/
theorem step_normalEnd {s : State} (h : s.NormalEnd) : step s = .fault .noStepHalted := by
  obtain ⟨hhalted, hfault⟩ := h
  have hstopped : s.stopped = some .noStepHalted := by simp [State.stopped, hhalted, hfault]
  simp only [step, hstopped]

/-! ### The obligations -/

/-- Settles O33: each of the four answers the advanced state, and its words are those of format N. -/
theorem nopsOnlyAdvance : Obligations.NopsOnlyAdvance := fun s =>
  ⟨⟨exec_nop24 s, exec_nop25 s, exec_nop27 s, exec_nop30 s⟩, rfl, fun low =>
    ⟨decode_formatN (i := .nop24) rfl low, decode_formatN (i := .nop25) rfl low, decode_formatN (i := .nop27) rfl low,
      decode_formatN (i := .nop30) rfl low⟩⟩

/-- Settles O34: the state that HLT answers has come to its normal end. -/
theorem hltHalts : Obligations.HltHalts := fun s =>
  ⟨exec_hlt s, fun hfault => step_normalEnd ⟨rfl, hfault⟩, decode_formatN (i := .hlt) rfl⟩

end Sys2Proof.Machine
end

section
/-! Overflow, underflow and division by zero (60_exceptions.md R225): results of the arithmetic instructions, never
faults. -/

namespace Sys2Proof.Machine

theorem or_overflow_bit (f : Word) : (f ||| 0b1000).getLsbD 3 = true := by simp

/-- What the results of ADD, SUB and MUL (R100 to R102) say of an instruction that overflows: it completes, by the
frame, and sets OV. -/
theorem completes_of_overflow {i : Instr} {d : RegField} {s : State} {overflow : Prop} [Decidable overflow]
    {fits : State → Prop} (ho : overflow)
    (h : ∃ t, exec i s = .next t ∧ t.pc = s.pc + 1 ∧ Frame [regm d, .flags] s t ∧
      if overflow then t.x d = 0 ∧ t.regs.flags = s.regs.flags ||| 0b1000 else fits t) :
    ∃ t, exec i s = .next t ∧ t.fault = s.fault ∧ t.halted = s.halted ∧ t.pc = s.pc + 1 ∧ t.x d = 0 ∧
      t.regs.flags.getLsbD 3 = true := by
  obtain ⟨t, hexec, hpc, hframe, hresult⟩ := h
  rw [if_pos ho] at hresult
  obtain ⟨hzero, hflags⟩ := hresult
  exact ⟨t, hexec, hframe.fault, hframe.halted, hpc, hzero, hflags ▸ or_overflow_bit _⟩

/-- Settles O15: the overflow cases of the four instructions' results, whose frames hold `halted` and the fault
record. -/
theorem overflowIsNoFault : Obligations.OverflowIsNoFault := by
  refine fun d a b s hd ha hb => ⟨fun ho => ?_, fun ho => ?_, fun ho => ?_, fun hzero => ?_⟩
  · exact completes_of_overflow ho ((Arithmetic.addResult d a b s).1 hd ha hb)
  · exact completes_of_overflow ho ((Arithmetic.subResult d a b s).1 hd ha hb)
  · exact completes_of_overflow ho ((Arithmetic.mulResult d a b s).1 hd ha hb)
  · obtain ⟨t, hexec, hpc, hframe, hresult⟩ := (Arithmetic.divResult a b s).1 ha hb
    rw [if_pos hzero] at hresult
    obtain ⟨h0, h1, hflags⟩ := hresult
    exact ⟨t, hexec, hframe.fault, hframe.halted, hpc, h0, h1, hflags ▸ or_overflow_bit _⟩

end Sys2Proof.Machine
end

section
/-! The order of the register checks (60_exceptions.md R224): the nested checks of a format stop at the first field of
111, whatever the instruction would go on to do. -/

namespace Sys2Proof.Machine

/-- The first field of 111 in a list of register fields is at place `p`. -/
inductive FirstBadField (p : FieldPos) : List (RegField × FieldPos) → Prop where
  | here (rest : List (RegField × FieldPos)) : FirstBadField p ((7, p) :: rest)
  | later {f : RegField} {q : FieldPos} {rest : List (RegField × FieldPos)} (hf : f ≠ 7)
      (h : FirstBadField p rest) : FirstBadField p ((f, q) :: rest)

theorem FirstBadField.of_append {p : FieldPos} {before : List (RegField × FieldPos)}
    (after : List (RegField × FieldPos)) (h : ∀ f ∈ before, f.1 ≠ 7) :
    FirstBadField p (before ++ (7, p) :: after) := by
  induction before with
  | nil => exact .here after
  | cons f rest ih =>
    obtain ⟨hf, hrest⟩ := List.forall_mem_cons.mp h
    exact .later hf (ih hrest)

theorem FirstBadField.ne_nil {p : FieldPos} {fields : List (RegField × FieldPos)} (h : FirstBadField p fields) :
    fields ≠ [] := by
  cases h <;> exact List.cons_ne_nil _ _

/-- One check, with the checks that follow it in `k`. -/
theorem withReg_firstBadField {p q : FieldPos} {f : RegField} {rest : List (RegField × FieldPos)} {s : State}
    {k : RegId → Result} (h : FirstBadField p ((f, q) :: rest))
    (hk : FirstBadField p rest → k (regm f) = .next (s.faultedWith (.registerFault 7 p))) :
    withReg f q s k = .next (s.faultedWith (.registerFault 7 p)) := by
  cases h with
  | here => exact withReg_seven
  | later hf hrest => exact (withReg_valid hf).trans (hk hrest)

theorem withRegsA_firstBadField {p : FieldPos} {f g h : RegField} {s : State} {k : RegId → RegId → RegId → State}
    (hbad : FirstBadField p [(f, .bits8to6), (g, .bits5to3), (h, .bits2to0)]) :
    withRegsA f g h s k = .next (s.faultedWith (.registerFault 7 p)) :=
  withReg_firstBadField hbad fun hbad => withReg_firstBadField hbad fun hbad =>
    withReg_firstBadField hbad fun hbad => absurd rfl hbad.ne_nil

theorem withRegsC_firstBadField {p : FieldPos} {f g : RegField} {s : State} {k : RegId → RegId → State}
    (hbad : FirstBadField p [(f, .bits5to3), (g, .bits2to0)]) :
    withRegsC f g s k = .next (s.faultedWith (.registerFault 7 p)) :=
  withReg_firstBadField hbad fun hbad => withReg_firstBadField hbad fun hbad => absurd rfl hbad.ne_nil

theorem withRegBD_firstBadField {p : FieldPos} {f : RegField} {s : State} {k : RegId → Result}
    (hbad : FirstBadField p [(f, .bits9to7)]) :
    withRegBD f s k = .next (s.faultedWith (.registerFault 7 p)) :=
  withReg_firstBadField hbad fun hbad => absurd rfl hbad.ne_nil

/-- By format: an instruction checks exactly its `regFields`, in order, before anything else. -/
theorem exec_firstBadField {i : Instr} {p : FieldPos} (s : State) (h : FirstBadField p i.regFields) :
    exec i s = .next (s.faultedWith (.registerFault 7 p)) := by
  cases i with
  | add | sub | mul | xor | or | and => exact withRegsA_firstBadField h
  | movi | ld | st | rs | ls | setb | clrb | tglb | rol | ror => exact withRegBD_firstBadField h
  | div | not | cmp => exact withRegsC_firstBadField h
  | movr | jmp | jlt | jgt | je | fadd | fsub | movf | nop24 | nop25 | nop27 | nop30 | hlt => exact absurd rfl h.ne_nil

/-- Settles O35: the statement's split of the fields is the first bad one. -/
theorem firstBadFieldFaults : Obligations.FirstBadFieldFaults := by
  intro i s before after p hfields hbefore
  exact exec_firstBadField s (hfields ▸ .of_append after hbefore)

end Sys2Proof.Machine
end

section
/-! The faults of a step (60_exceptions.md R220 to R223): each is raised in a running state, by the fetch or for a cause
of the decoded instruction. -/

namespace Sys2Proof.Machine

/-- Among the effects of an instruction on a state without a fault record, only a fault makes one. -/
theorem effect_fault {i : Instr} {s t : State} {r : FaultRecord} (hrun : s.Running) (he : Effect i s t)
    (hr : t.fault = some r) : t = s.raise r.kind ∧ FaultCause i s r.kind := by
  cases he with
  | fault k hcause =>
    obtain rfl : _ = r := Option.some.inj hr
    exact ⟨rfl, hcause⟩
  | halt | store | regs | jump => simp [hrun.2] at hr

/-- What a step that faults did: it raised the fault in a running state, at the fetch or for a cause of the decoded
instruction. -/
theorem step_fault {s t : State} {r : FaultRecord} (h : step s = .next t) (hr : t.fault = some r) :
    s.Running ∧ t = s.raise r.kind ∧
      ((256 ≤ s.pc.toNat ∧ r.kind = .memoryFault s.pc.toNat) ∨
        (s.pc.toNat < 256 ∧ FaultCause (decode (s.mem.read s.pc.toNat)) s r.kind)) := by
  obtain ⟨hrun, ⟨hp, rfl⟩ | ⟨hp, hexec⟩⟩ := step_cases h
  · obtain rfl : _ = r := Option.some.inj hr
    exact ⟨hrun, rfl, .inl ⟨hp, rfl⟩⟩
  · obtain ⟨ht, hcause⟩ := effect_fault hrun (exec_cases hexec) hr
    exact ⟨hrun, ht, .inr ⟨hp, hcause⟩⟩

/-- Settles O37: a fault is raised in a running state, and the raised state does not run. -/
theorem faultsArePrecise : Obligations.FaultsArePrecise := by
  intro s t r hstep hr
  obtain ⟨hrun, ht, -⟩ := step_fault hstep hr
  have hstopped : ¬ t.Running := fun ⟨_, hnone⟩ => by simp [hnone] at hr
  refine ⟨ht, ?_, step_not_running hstopped⟩
  rw [ht]
  exact (raise_faulted hrun r.kind).1

/-- The causes of an instruction's fault, each with the detail that is recorded (60_exceptions.md R220). -/
theorem FaultCause.cases {i : Instr} {s : State} {k : FaultKind} (h : FaultCause i s k) :
    (∃ p, (7, p) ∈ i.regFields ∧ k = .registerFault 7 p) ∨
      (∃ n, i.rotateCount = some n ∧ 16 < n.toNat ∧ k = .shiftCountFault n) ∨
      (∃ d n, (i = .ld d n ∨ i = .st d n) ∧ 256 ≤ n.toNat + s.ic ∧ k = .memoryFault (n.toNat + s.ic)) := by
  cases h with
  | field p hp => exact .inl ⟨p, hp, rfl⟩
  | count n hn hcount => exact .inr (.inl ⟨n, hn, hcount, rfl⟩)
  | load d n hi ha => exact .inr (.inr ⟨d, n, .inl hi, ha, rfl⟩)
  | store d n hi ha => exact .inr (.inr ⟨d, n, .inr hi, ha, rfl⟩)

/-- Settles O38: the fetch's fault, or one of the causes of the decoded instruction's. -/
theorem faultCauses : Obligations.FaultCauses := by
  intro s t r hstep hr
  obtain ⟨-, -, hfetch | ⟨hp, hcause⟩⟩ := step_fault hstep hr
  · exact .inl hfetch
  · exact .inr ⟨hp, hcause.cases⟩

end Sys2Proof.Machine
end

section
/-! The memory dump (60_exceptions.md R241): a line of text for each cell, in address order. -/

namespace Sys2Proof.Machine

theorem binaryText_length (width n : Nat) : (binaryText width n).length = width := by
  induction width with
  | zero => rfl
  | succ width ih => rw [binaryText, List.length_cons, ih]

theorem memoryDump_length (m : Memory) : (memoryDump m).length = 256 := by simp [memoryDump]

theorem memoryDump_line (m : Memory) {a : Nat} (ha : a < 256) : (memoryDump m)[a]? = some (wordText (m.read a)) := by
  simp [memoryDump, ha]

/-- Settles O48: line `a` is the text of the cell at `a`, which reads back as the cell. -/
theorem dumpShowsEveryCell : Obligations.DumpShowsEveryCell := fun m =>
  ⟨memoryDump_length m, fun a ha =>
    ⟨wordText (m.read a), memoryDump_line m ha, binaryText_length _ _, parseWord_wordText _⟩⟩

end Sys2Proof.Machine
end

section
/-! Launching a program (70_reset_and_hazards.md R250, R251): the words that the loader writes, one after the other, and
the cells around them. -/

namespace Sys2Proof.Machine

/-- Writing upwards leaves the cells below alone. -/
theorem Memory.read_writeWords_below {m : Memory} {a c : Nat} (ws : List Word) (hc : c < a) :
    (m.writeWords a ws).read c = m.read c := by
  induction ws generalizing m a with
  | nil => rfl
  | cons w rest ih => rw [writeWords, ih (by omega), read_write, if_neg (by omega)]

/-- From the first written cell on, a cell holds its word, and past the words what it held before. -/
theorem Memory.read_writeWords (m : Memory) (a k : Nat) (ws : List Word) :
    (m.writeWords a ws).read (a + k) = ws[k]?.getD (m.read (a + k)) := by
  induction ws generalizing m a k with
  | nil => rfl
  | cons w rest ih =>
    cases k with
    | zero =>
      rw [Nat.add_zero, writeWords, read_writeWords_below rest (Nat.lt_succ_self a), read_write, if_pos rfl]
      rfl
    | succ k =>
      have hk : a + (k + 1) = a + 1 + k := by omega
      rw [writeWords, hk, ih, read_write, if_neg (by omega), List.getElem?_cons_succ]

/-- Words written inside memory keep the canonical form. -/
theorem Memory.writeWords_wf {m : Memory} {a : Nat} {ws : List Word} (h : m.wf = true) (hfit : a + ws.length ≤ 256) :
    (m.writeWords a ws).wf = true := by
  induction ws generalizing m a with
  | nil => exact h
  | cons w rest ih =>
    rw [List.length_cons] at hfit
    exact ih (write_wf h (by omega)) (by omega)

/-- Each cell of the launch state: the program's word, and 0 past the program (decision D8, log 3). -/
theorem launchState_read (program : List Word) (a : Nat) :
    (launchState program).mem.read a = program[a]?.getD 0 := by
  have h := State.reset.mem.read_writeWords 0 a program
  rw [Nat.zero_add] at h
  exact h

theorem launchState_launched {program : List Word} (hlow : 1 ≤ program.length) (hhigh : program.length ≤ 256) :
    Launched program (launchState program) where
  icLow := hlow
  icHigh := hhigh
  length := rfl
  memWf := Memory.writeWords_wf reset_mem_wf (by omega)
  programRegion a ha := by rw [launchState_read, List.getElem?_eq_getElem ha, Option.getD_some]
  dataArea a ha := by rw [launchState_read, List.getElem?_eq_none ha, Option.getD_none]
  pc := rfl
  regs r := by cases r <;> rfl
  running := ⟨rfl, rfl⟩

theorem launch_described {program : List Word} (hlow : 1 ≤ program.length) (hhigh : program.length ≤ 256) :
    launch program = .next (launchState program) := by
  rw [launch, if_neg (List.ne_nil_of_length_pos hlow), if_neg (Nat.not_lt.mpr hhigh)]

/-- Settles O45: the premises hold of `launchState`, which is what the loader answers for such a program. -/
theorem launchMeetsPremises : Obligations.LaunchMeetsPremises := fun _ hlow hhigh =>
  ⟨_, launch_described hlow hhigh, launchState_launched hlow hhigh⟩

end Sys2Proof.Machine
end

section
/-! The line that a LoadError names (70_reset_and_hazards.md R256): dropping the empty lines at the end drops no line up
to a line that is not empty, and the search for a bad line passes the good ones. -/

namespace Sys2Proof.Machine

/-- Empty lines are dropped behind a line that is not empty, and nothing before it: seen from the end, the dropping
stops at that line at the latest. -/
theorem dropTrailingEmpty_append_cons {line : List Char} (before after : List (List Char)) (h : line ≠ []) :
    dropTrailingEmpty (before ++ line :: after) = before ++ line :: dropTrailingEmpty after := by
  have hline : line.isEmpty = false := List.isEmpty_eq_false_iff.mpr h
  simp only [dropTrailingEmpty, List.reverse_append, List.reverse_cons, List.append_assoc, List.dropWhile_append]
  cases after.reverse.dropWhile List.isEmpty <;> simp [hline]

/-- The search passes lines that are empty or program words, and stops at the first that is neither. -/
theorem firstBadLine_append_cons {before after : List (List Char)} {bad : List Char} (n : Nat)
    (hbefore : ∀ l ∈ before, l = [] ∨ parseWord l ≠ none) (hne : bad ≠ []) (hbad : parseWord bad = none) :
    firstBadLine n (before ++ bad :: after) = some (n + before.length) := by
  induction before generalizing n with
  | nil => exact if_pos ⟨hne, hbad⟩
  | cons line rest ih =>
    obtain ⟨hline, hrest⟩ := List.forall_mem_cons.mp hbefore
    have hgood : ¬ (line ≠ [] ∧ parseWord line = none) := fun ⟨hne, hnone⟩ => hline.elim hne (· hnone)
    rw [List.cons_append, firstBadLine, if_neg hgood, ih _ hrest, List.length_cons, Nat.add_right_comm, Nat.add_assoc]

/-- Settles O46: the trimmed lines up to the bad one survive, so the search counts all of them. -/
theorem loadErrorNamesFirstBadLine : Obligations.LoadErrorNamesFirstBadLine := by
  intro before after bad hbefore hne hbad
  have hlines : dropTrailingEmpty ((before ++ bad :: after).map trimLine) =
      before.map trimLine ++ trimLine bad :: dropTrailingEmpty (after.map trimLine) := by
    rw [List.map_append, List.map_cons, dropTrailingEmpty_append_cons _ _ hne]
  have hfirst : firstBadLine 1 (before.map trimLine ++ trimLine bad :: dropTrailingEmpty (after.map trimLine)) =
      some (before.length + 1) := by
    rw [firstBadLine_append_cons 1 (List.forall_mem_map.mpr hbefore) hne hbad, List.length_map, Nat.add_comm]
  rw [load, hlines]
  simp only [hfirst]

end Sys2Proof.Machine
end
